-- ==== Sys2Proof/Word.lean ====
section
/-!
DEFINITION. The words of the block and the names it uses for its phases and errors: a byte (R5
`BYTE_WIDTH`), a value (R5 `VALUE_WIDTH`), the three error kinds (R140) and the decoder's phase (R24).
-/

namespace Sys2Proof

/-- A byte: 8 bits, bit 0 least significant (R5, R7). -/
abbrev Byte := BitVec 8

/-- A value: 16 bits, unsigned, in [0, 65535] (R5, R12). -/
abbrev Value := BitVec 16

/-- The three error kinds, all raised by decode operations only (R140). -/
inductive ErrorKind where
  /-- The input ended while a byte was still expected (R141). -/
  | unexpectedEndOfInput
  /-- A third byte with its continuation bit set (R142). -/
  | encodingOutOfBounds
  /-- Bytes remain after a value decoded in strict mode (R143). -/
  | trailingData
  deriving DecidableEq, Repr, Inhabited

/-- The values of the register PHASE (R24). -/
inductive Phase where
  /-- Running: another byte is needed. -/
  | busy
  /-- A terminating byte was consumed; RESULT and COUNT are final. -/
  | done
  /-- The transaction failed. -/
  | failed (e : ErrorKind)
  deriving DecidableEq, Repr, Inhabited

end Sys2Proof
end

