-- ==== Sys2Proof/Syntax.lean ====
section
/-!
DEFINITION. The command format (R70): the four operations with the operands each takes, one constructor per row of
spec/opcode_table.json, and the command ports a caller drives to issue one.
-/

namespace Sys2Proof

/-- An operation with its operands (R2, R70, R71). Every value of every operand is legal: VALUE_IN is any 16-bit
value, BUF any finite byte sequence, SRC any source. -/
inductive Instr where
  /-- `ENCODE` of the operand VALUE_IN (R80). -/
  | encode (valueIn : Value)
  /-- `DECODE` from the front of the buffer BUF (R104). -/
  | decode (buf : List Byte)
  /-- `DECODE_READER` from the byte source that SRC binds (R107). -/
  | decodeReader (src : Nat)
  /-- `DECODE_STRICT` of the buffer BUF, which must hold exactly one value (R110). -/
  | decodeStrict (buf : List Byte)
  deriving DecidableEq, Repr

/-- The command ports of R70: what the caller drives when it issues a command. SRC is the name of a byte source. -/
structure Command where
  /-- The operation selector `OP[1:0]` (R71). -/
  op : BitVec 2
  /-- The port VALUE_IN, read by ENCODE only. -/
  valueIn : Value
  /-- The port BUF, read by DECODE and DECODE_STRICT only. -/
  buf : List Byte
  /-- The binding SRC, read by DECODE_READER only. -/
  src : Nat
  deriving DecidableEq, Repr

end Sys2Proof
end

