-- ==== Sys2Proof/WellFormed.lean ====
section
/-!
DEFINITION. When a command's ports are in the form the encoder writes: every port its operation does not read is at
rest. An `Instr` needs no check, for each of its fields admits exactly the values R70 and R72 admit.
-/

namespace Sys2Proof

/-- Every port the selected operation does not read is at rest: VALUE_IN 0, BUF empty, SRC 0 (R70; log 19). -/
abbrev Command.WellFormed (c : Command) : Prop :=
  (c.op ≠ 0b00#2 → c.valueIn = 0#16) ∧
  (c.op = 0b00#2 ∨ c.op = 0b10#2 → c.buf = []) ∧
  (c.op ≠ 0b10#2 → c.src = 0)

end Sys2Proof
end

