-- ==== Sys2Proof/Decode.lean ====
section
/-!
DEFINITION. The selector decoder of R71, total on every value of the ports, and the encoder that drives the ports for an
operation; the reading of a selector from the bytes of a table word, for the host.
-/

namespace Sys2Proof

/-- Why bytes hold no command. -/
inductive DecodeError where
  /-- There is no byte to read `OP[1:0]` from. -/
  | noSelector
  deriving DecidableEq, Repr

/-- The operation a command asks for, by the selector table of R71; it takes the operands R70 gives that operation. -/
def decode (c : Command) : Instr :=
  match c.op.toFin with
  | 0 => .encode c.valueIn
  | 1 => .decode c.buf
  | 2 => .decodeReader c.src
  | 3 => .decodeStrict c.buf

/-- The command that asks for an operation: its selector (R71), its operands on their ports (R70), the others at rest. -/
def encode : Instr → Command
  | .encode v => ⟨0b00#2, v, [], 0⟩
  | .decode buf => ⟨0b01#2, 0#16, buf, 0⟩
  | .decodeReader src => ⟨0b10#2, 0#16, [], src⟩
  | .decodeStrict buf => ⟨0b11#2, 0#16, buf, 0⟩

/-- The command whose selector is `OP[1:0]` = bits 1:0 of the first byte, as the mask of spec/opcode_table.json
reads it, with every operand port at rest (log 18). -/
def commandOfBytes : List Byte → Except DecodeError Command
  | [] => .error .noSelector
  | b :: _ => .ok ⟨b.setWidth 2, 0#16, [], 0⟩

/-- The bytes of a word of `nbits` bits, least significant first. -/
def bytesOfWord (nbits w : Nat) : List Byte :=
  (List.range ((nbits + 7) / 8)).map fun k => BitVec.ofNat 8 (w >>> (8 * k))

/-- The operation the decoder reads from a word of spec/opcode_table.json, operand ports at rest; none where the word
holds no selector. -/
def decodeTableWord (nbits w : Nat) : Option Instr :=
  match commandOfBytes (bytesOfWord nbits w) with
  | .ok c => some (decode c)
  | .error _ => none

end Sys2Proof
end

