-- ==== Sys2Proof/Machine/State.lean ====
section
/-!
DEFINITION. The state of the machine as plain data: the transaction registers (R21 to R25), the outputs (R70), and the
caller's side, which is the byte sources (R31) and what has been issued and not yet performed (R48). Then the ways a step can stop,
and the state after reset (R32, R170).
-/

namespace Sys2Proof.Machine

/-- The decoder's transaction registers (R21 to R24). -/
structure DecoderRegs where
  /-- RESULT, the value accumulated so far (R21). -/
  result : Value
  /-- SHIFT, the bit position of the next payload (R22: "A 5-bit register is enough"). -/
  shift : BitVec 5
  /-- COUNT, the bytes consumed so far (R23: "A 2-bit register is enough"). -/
  count : BitVec 2
  /-- PHASE, the state of the decoder's state machine (R24). -/
  phase : Phase
  deriving DecidableEq, Repr

/-- The encoder's transaction registers (R25). -/
structure EncoderRegs where
  /-- V, what is left of the value. -/
  v : Value
  /-- OUT, the bytes emitted so far, first emitted first. -/
  out : List Byte
  deriving DecidableEq, Repr

/-- An answer of a byte source to one `ReadByte()`, and the input of one byte step (R10, R100). -/
inductive Answer where
  /-- `Byte(b)`: a byte, which is consumed. -/
  | byte (b : Byte)
  /-- `Exhausted`: there is no byte; nothing is consumed. -/
  | exhausted
  deriving DecidableEq, Repr

/-- A byte source (R30, R31, R43): caller state. It answers its coming requests with `answers` in order and, when
those are used up, with `Exhausted` (log 6). -/
structure Source where
  /-- The answers to come, the next one first. -/
  answers : List Answer
  /-- How many bytes the source has delivered: its position (R31, R108). -/
  position : Nat
  /-- How many `ReadByte()` requests the source has seen (R11, R107). -/
  requests : Nat
  deriving DecidableEq, Repr

/-- The source an unlisted name stands for: nothing to deliver, nothing asked of it yet (log 6). -/
def Source.empty : Source := ⟨[], 0, 0⟩

/-- The outputs of one transaction (R70); `none` where the output is not presented. -/
structure Outputs where
  /-- STATUS, always presented (R144). -/
  status : BitVec 2
  /-- LEN, presented by ENCODE. -/
  len : Option (BitVec 2)
  /-- BYTES, the first LEN lanes, presented by ENCODE; further lanes are never presented (U3). -/
  bytes : Option (List Byte)
  /-- VALUE, presented by a decode operation with STATUS = OK. -/
  value : Option Value
  /-- CONSUMED, presented by DECODE with STATUS = OK. -/
  consumed : Option (BitVec 2)
  deriving DecidableEq, Repr

/-- Where the bytes of a decode transaction come from (R30). -/
inductive Feed where
  /-- The input buffer BUF. -/
  | buffer (buf : List Byte)
  /-- The byte source of this name. -/
  | source (src : Nat)
  deriving DecidableEq, Repr

/-- What the world outside does while one transaction runs. -/
structure Conduct where
  /-- The caller keeps BUF and VALUE_IN unchanged until STATUS appears (R174). -/
  operandsHeld : Bool
  /-- The byte source serves this transaction alone until it ends (R176). -/
  sourceExclusive : Bool
  /-- A reset arrives before STATUS appears, once this many byte steps or loop passes have been made (R172). -/
  resetAfter : Option Nat
  deriving DecidableEq, Repr

/-- The caller meets both duties and no reset arrives. -/
def Conduct.dutiful : Conduct := ⟨true, true, none⟩

/-- What reaches the block from outside (R70, R170). -/
inductive Input where
  /-- A command is issued, and the world behaves like this while its transaction runs. -/
  | command (c : Command) (w : Conduct)
  /-- The block is reset between transactions. -/
  | reset
  deriving DecidableEq, Repr

/-- The machine's state. -/
structure State where
  /-- The decoder's transaction registers. -/
  dec : DecoderRegs
  /-- The encoder's transaction registers. -/
  enc : EncoderRegs
  /-- The outputs of the transaction the last step ended; `none` when it ended none (R28: STATUS does not persist). -/
  outputs : Option Outputs
  /-- The byte sources by name: names strictly rising, none equal to `Source.empty` (the source of an unlisted name). -/
  sources : List (Nat × Source)
  /-- What has been issued and not yet performed, oldest first (R48). -/
  inputs : List Input
  /-- The model's own count of the free values drawn (log 4). -/
  draws : Nat
  deriving DecidableEq, Repr

/-- Why the machine could stop with a fault. The block has no trap and nothing that stops it: each of the three error
kinds ends a transaction with a STATUS code and a next state (R140, R146). So there is no fault. Safe: no claim can
rest on one. -/
inductive Fault where
  deriving DecidableEq, Repr

/-- Why the model gives a step no meaning. -/
inductive Refusal where
  /-- Raised by exec for an instruction that has no meaning yet; no arm raises it. Safe: the run stops. -/
  | notModelled (mnemonic : String)
  /-- Raised by step when the caller changed an operand of ENCODE, DECODE or DECODE_STRICT before STATUS appeared: R174, "a
  model should refuse such a run rather than give it a value" (U5). Safe: the run stops. -/
  | operandsChanged
  /-- Raised by step when the byte source of DECODE_READER served another transaction too: R176, "outside the block's
  promise" (U6). Safe: the run stops. -/
  | sourceShared
  deriving DecidableEq, Repr

/-- The machine right after reset: nothing presented, nothing issued, every source empty (R170). The spec leaves the
transaction registers unspecified there; the values named here are the model's (log 3), PHASE at the idle value R32
lets a model take. -/
def State.reset : State where
  dec := ⟨0#16, 0#5, 0#2, .done⟩
  enc := ⟨0#16, []⟩
  outputs := none
  sources := []
  inputs := []
  draws := 0

end Sys2Proof.Machine
end

