-- ==== Sys2Proof/Machine/Flags.lean ====
section
/-!
DEFINITION. The status codes. The block has no flags (R28); the STATUS output is the only status it produces (R144).
-/

namespace Sys2Proof.Machine

/-- `OK` (R144). -/
def statusOk : BitVec 2 := 0#2

/-- `code(e)`: the STATUS code of an error kind (R140, R144). -/
def statusCode : ErrorKind → BitVec 2
  | .unexpectedEndOfInput => 1#2
  | .encodingOutOfBounds => 2#2
  | .trailingData => 3#2

end Sys2Proof.Machine
end

