-- ==== Sys2Proof/Config.lean ====
section
/-!
DEFINITION. What is fixed for the block (the parameters of R5), the open parameter LATENCY (R6, R179), and the free
values: the contents the transaction registers have outside a transaction, which R32 and R170 leave unspecified.
A free value has no body, so nothing can be proved of it.
-/

namespace Sys2Proof

/-- `GROUP_WIDTH`: payload bits per byte (R5). -/
abbrev Config.groupWidth : Nat := 7

/-- `SHIFT_LIMIT`: the decoder fails when the shift would reach it after a continuation byte (R5). -/
abbrev Config.shiftLimit : Nat := 16

/-- `MAX_BYTES`: the longest encoding (R5); also the bound on the byte steps of one decode (R102). -/
abbrev Config.maxBytes : Nat := 3

/-- The most passes the encoder's loop makes (R82). -/
abbrev Config.maxPasses : Nat := 2

/-- `LATENCY`: the time of a transaction, OPEN; no rule reads it and no definition of the model does (R6, R179). -/
opaque Config.latency : Nat

/-- Free value: what RESULT holds outside a transaction (R32, U4; log 4). -/
opaque Config.unspecifiedResult : Nat → Value

/-- Free value: what SHIFT holds outside a transaction (R32, U4; log 4). -/
opaque Config.unspecifiedShift : Nat → BitVec 5

/-- Free value: what COUNT holds outside a transaction (R32, U4; log 4). -/
opaque Config.unspecifiedCount : Nat → BitVec 2

/-- Free value: what PHASE holds outside a transaction (R32, U4; log 4). -/
opaque Config.unspecifiedPhase : Nat → Phase

/-- Free value: what V holds outside a transaction (R32, U4; log 4). -/
opaque Config.unspecifiedV : Nat → Value

/-- Free value: what OUT holds outside a transaction; the model takes at most three bytes of it (R25, R32, U4; log 5). -/
opaque Config.unspecifiedOut : Nat → List Byte

end Sys2Proof
end

