-- ==== Sys2Proof/Machine/Operands.lean ====
section
/-!
DEFINITION. The fields of an encoded byte (R60), the access to one byte of the input buffer and of a byte source (R42, R43),
and the table of byte sources by name.
-/

namespace Sys2Proof.Machine

/-- The continuation bit C of an encoded byte, bit 7 (R12, R60). -/
def contBit (b : Byte) : Bool := b.getLsbD 7

/-- The payload P of an encoded byte, bits 6:0 (R12, R60). -/
def payload (b : Byte) : BitVec 7 := b.extractLsb' 0 7

/-- The payload of a byte zero-extended to a value and shifted to a bit position, cut to 16 bits (R8, R100). -/
def payloadAt (b : Byte) (shift : Nat) : Value := (payload b).setWidth 16 <<< shift

/-- The low seven bits of a value as a byte with the continuation bit set (R80). -/
def groupByte (v : Value) : Byte := 0x80#8 ||| (v.extractLsb' 0 7).setWidth 8

/-- `MemRead(i, 1)`: byte `i` of the buffer, defined for `i` below its length only (R10, R42). -/
def memRead (buf : List Byte) (i : Nat) : Option Byte := buf[i]?

/-- What the byte step gets from a buffer: the byte at COUNT while COUNT < n, else `Exhausted` (R104). -/
def bufferAnswer (buf : List Byte) (count : Nat) : Answer :=
  match memRead buf count with
  | some b => .byte b
  | none => .exhausted

/-- `ReadByte()` at the source's side: it answers, and a `Byte` answer advances its position by 1 (R10, R43). -/
def Source.ask (x : Source) : Answer × Source :=
  match x.answers with
  | [] => (.exhausted, { x with requests := x.requests + 1 })
  | .exhausted :: rest => (.exhausted, { x with answers := rest, requests := x.requests + 1 })
  | .byte b :: rest => (.byte b, ⟨rest, x.position + 1, x.requests + 1⟩)

/-- The source of this name. -/
def sourceAt : List (Nat × Source) → Nat → Source
  | [], _ => Source.empty
  | (j, x) :: rest, k => if j = k then x else sourceAt rest k

/-- The table with the source of this name replaced, kept in canonical form. -/
def putSource : List (Nat × Source) → Nat → Source → List (Nat × Source)
  | [], k, x => if x = Source.empty then [] else [(k, x)]
  | (j, y) :: rest, k, x =>
    if k < j then (if x = Source.empty then (j, y) :: rest else (k, x) :: (j, y) :: rest)
    else if k = j then (if x = Source.empty then rest else (k, x) :: rest)
    else (j, y) :: putSource rest k x

end Sys2Proof.Machine
end

