-- ==== Sys2Proof/Machine/Ops.lean ====
section
/-!
DEFINITION. The operations the meanings share: starting a transaction (R101, R80), the decoder's byte step (R100) and its loop,
the encoder's pass, ending a transaction with outputs, and raising an error (R146).
-/

namespace Sys2Proof.Machine

/-- The transaction registers outside a transaction: unspecified, so each gets a fresh free value (R32, R170; log 4). OUT
keeps its bound of three bytes (R25; log 5). -/
def retire (s : State) : State :=
  { s with
    dec := ⟨Config.unspecifiedResult s.draws, Config.unspecifiedShift s.draws, Config.unspecifiedCount s.draws,
      Config.unspecifiedPhase s.draws⟩
    enc := ⟨Config.unspecifiedV s.draws, (Config.unspecifiedOut s.draws).take Config.maxBytes⟩
    draws := s.draws + 1 }

/-- End the transaction and present its outputs (R10 `return`, R170). -/
def finish (o : Outputs) (s : State) : State := retire { s with outputs := some o }

/-- `raise e`: error entry (R10, R146). The transaction ends, STATUS takes the code of the error and nothing else is
presented; a source keeps what was read from it. -/
def raiseError (e : ErrorKind) (s : State) : State :=
  finish ⟨statusCode e, none, none, none, none⟩ s

/-- The decoder's registers at the start of every decode transaction (R32, R101). -/
def DecoderRegs.start : DecoderRegs := ⟨0#16, 0#5, 0#2, .busy⟩

/-- The start of a decode transaction (R101); no outputs are presented while it runs (R48). -/
def beginDecode (s : State) : State := { s with dec := DecoderRegs.start, outputs := none }

/-- `DECODE_STEP` (R100). A step exists only in phase Busy; in the final phases nothing changes (R24). -/
def byteStep (input : Answer) (r : DecoderRegs) : DecoderRegs :=
  match r.phase with
  | .done => r
  | .failed _ => r
  | .busy =>
    match input with
    | .exhausted => { r with phase := .failed .unexpectedEndOfInput }
    | .byte b =>
      let taken := { r with count := r.count + 1, result := r.result ||| payloadAt b r.shift.toNat }
      if contBit b = false then { taken with phase := .done }
      else if Config.shiftLimit ≤ r.shift.toNat + Config.groupWidth then
        { taken with phase := .failed .encodingOutOfBounds }
      else { taken with shift := r.shift + 7#5 }

/-- `ReadByte()` of the source of this name (R10, R43). -/
def readByte (src : Nat) (s : State) : Answer × State :=
  let asked := (sourceAt s.sources src).ask
  (asked.1, { s with sources := putSource s.sources src asked.2 })

/-- One request of the decoder to its feed (R104, R107). -/
def nextInput (f : Feed) (s : State) : Answer × State :=
  match f with
  | .buffer buf => (bufferAnswer buf s.dec.count.toNat, s)
  | .source src => readByte src s

/-- One turn of the decoder's loop: a request, then a byte step on the answer (R104, R107). -/
def feedStep (f : Feed) (s : State) : State :=
  let asked := nextInput f s
  { asked.2 with dec := byteStep asked.1 asked.2.dec }

/-- The decoder's loop: turns while PHASE is Busy, at most this many (R101; `maxBytes` turns always end it, R102). -/
def decodeRun (f : Feed) : Nat → State → State
  | 0, s => s
  | n + 1, s => if s.dec.phase = .busy then decodeRun f n (feedStep f s) else s

/-- The end of a decode transaction: what `onDone` makes of a success, or the error raised (R104, R107, R110). While PHASE is
Busy nothing is presented; R102 rules that out after `maxBytes` turns. -/
def concludeDecode (onDone : State → State) (s : State) : State :=
  match s.dec.phase with
  | .busy => s
  | .done => onDone s
  | .failed e => raiseError e s

/-- The start of an encode transaction (R80, R171). -/
def beginEncode (v : Value) (s : State) : State := { s with enc := ⟨v, []⟩, outputs := none }

/-- `EmitByte(b)`: append to OUT; the sink always accepts (R10, R44). -/
def emitByte (b : Byte) (s : State) : State := { s with enc := { s.enc with out := s.enc.out ++ [b] } }

/-- One pass of the encoder's loop: emit the low seven bits with the continuation bit set, shift V right by 7 (R80). -/
def encodePass (s : State) : State :=
  let emitted := emitByte (groupByte s.enc.v) s
  { emitted with enc := { emitted.enc with v := emitted.enc.v >>> Config.groupWidth } }

/-- The encoder's loop: passes while V >= 0x80, at most this many (R80; `maxPasses` always suffice, R82). -/
def encodeRun : Nat → State → State
  | 0, s => s
  | n + 1, s => if 0x80#16 ≤ s.enc.v then encodeRun n (encodePass s) else s

end Sys2Proof.Machine
end

