-- ==== Sys2Proof/Machine/Decoder.lean ====
section
/-!
DEFINITION. The decoder family: DECODE (R104), DECODE_READER (R107) and DECODE_STRICT (R110).
-/

namespace Sys2Proof.Machine

/-- The success of DECODE: VALUE and CONSUMED (R104). -/
def decodeDone (s : State) : State :=
  finish ⟨statusOk, none, none, some s.dec.result, some s.dec.count⟩ s

/-- The success of DECODE_READER: VALUE; there is no CONSUMED output (R107). -/
def decodeReaderDone (s : State) : State :=
  finish ⟨statusOk, none, none, some s.dec.result, none⟩ s

/-- The end of DECODE_STRICT after a successful decode of a buffer of `n` bytes: TrailingData if bytes remain, else VALUE
(R110). -/
def decodeStrictDone (n : Nat) (s : State) : State :=
  if s.dec.count.toNat < n then raiseError .trailingData s
  else finish ⟨statusOk, none, none, some s.dec.result, none⟩ s

/-- `DECODE` (R104). -/
def execDecode (buf : List Byte) (s : State) : Host.Outcome State Fault Refusal :=
  .next (concludeDecode decodeDone (decodeRun (.buffer buf) Config.maxBytes (beginDecode s)))

/-- `DECODE_READER` (R107): the source ends advanced by exactly what was read (R108). -/
def execDecodeReader (src : Nat) (s : State) : Host.Outcome State Fault Refusal :=
  .next (concludeDecode decodeReaderDone (decodeRun (.source src) Config.maxBytes (beginDecode s)))

/-- `DECODE_STRICT` (R110): decode errors first, then TrailingData (R145). -/
def execDecodeStrict (buf : List Byte) (s : State) : Host.Outcome State Fault Refusal :=
  .next (concludeDecode (decodeStrictDone buf.length) (decodeRun (.buffer buf) Config.maxBytes (beginDecode s)))

end Sys2Proof.Machine
end

