-- ==== Sys2Proof/Machine/Encoder.lean ====
section
/-!
DEFINITION. The encoder family: ENCODE (R80).
-/

namespace Sys2Proof.Machine

/-- `ENCODE` (R80): the loop, the last byte V[7:0], then STATUS, LEN and BYTES. It never fails (R84). -/
def execEncode (v : Value) (s : State) : Host.Outcome State Fault Refusal :=
  let looped := encodeRun Config.maxPasses (beginEncode v s)
  let emitted := emitByte (looped.enc.v.setWidth 8) looped
  .next (finish ⟨statusOk, some (BitVec.ofNat 2 emitted.enc.out.length), some emitted.enc.out, none, none⟩ emitted)

end Sys2Proof.Machine
end

