-- ==== Sys2Proof/Machine/Dispatch.lean ====
section
/-!
DEFINITION. One arm per operation (R71), each one call of its meaning.
-/

namespace Sys2Proof.Machine

def exec (i : Instr) (s : State) : Host.Outcome State Fault Refusal :=
  match i with
  | .encode v => Sys2Proof.Machine.execEncode v s
  | .decode buf => Sys2Proof.Machine.execDecode buf s
  | .decodeReader src => Sys2Proof.Machine.execDecodeReader src s
  | .decodeStrict buf => Sys2Proof.Machine.execDecodeStrict buf s

end Sys2Proof.Machine
end

