-- ==== Sys2Proof/Machine/Environment.lean ====
section
/-!
DEFINITION. What the world outside does to the block around the four operations: a duty it breaks (R174, R176), a reset
inside a transaction (R172) or between two (R170), and no command at all.
-/

namespace Sys2Proof.Machine

/-- The duty the caller breaks for this operation, if any. R174 binds the callers of the operations that read the
ports VALUE_IN and BUF, R176 the caller that binds a source (log 13). -/
def brokenDuty (w : Conduct) : Instr → Option Refusal
  | .encode _ => if w.operandsHeld then none else some .operandsChanged
  | .decode _ => if w.operandsHeld then none else some .operandsChanged
  | .decodeReader _ => if w.sourceExclusive then none else some .sourceShared
  | .decodeStrict _ => if w.operandsHeld then none else some .operandsChanged

/-- A transaction abandoned by a reset after `k` turns of its loop: no outputs, and a source keeps the advance made so far
(R172; log 14). -/
def abandon (k : Nat) (s : State) : Instr → State
  | .encode v => retire (encodeRun k (beginEncode v s))
  | .decode buf => retire (decodeRun (.buffer buf) k (beginDecode s))
  | .decodeReader src => retire (decodeRun (.source src) k (beginDecode s))
  | .decodeStrict buf => retire (decodeRun (.buffer buf) k (beginDecode s))

/-- A reset between transactions: nothing is presented and the transaction registers are unspecified (R170; log 15). -/
def resetBlock (s : State) : State := retire { s with outputs := none }

/-- The block waits for a command: nothing happens, and no STATUS persists (R28, R170; log 16). -/
def idle (s : State) : State := { s with outputs := none }

end Sys2Proof.Machine
end

