-- ==== Sys2Proof/Machine/Step.lean ====
section
/-!
DEFINITION. One step of the machine: it takes the oldest input and performs it (R48). A command is one whole transaction (R11).
-/

namespace Sys2Proof.Machine

/-- Perform one issued operation under this conduct of the world outside: refuse a broken duty, abandon the
transaction if a reset arrives, else perform it. -/
def perform (w : Conduct) (i : Instr) (s : State) : Host.Outcome State Fault Refusal :=
  match brokenDuty w i with
  | some r => .refused r
  | none =>
    match w.resetAfter with
    | some k => .next (abandon k s i)
    | none => exec i s

/-- One step: the oldest input is taken and performed; with no input the block is idle. -/
def step (s : State) : Host.Outcome State Fault Refusal :=
  match s.inputs with
  | [] => .next (idle s)
  | .reset :: rest => .next (resetBlock { s with inputs := rest })
  | .command c w :: rest => perform w (decode c) { s with inputs := rest }

/-- The state in which the command of a table word is the next one to be performed, its caller dutiful (log 17). -/
def State.withFetchWord (s : State) (nbits w : Nat) : State :=
  match commandOfBytes (bytesOfWord nbits w) with
  | .ok c => { s with inputs := .command c Conduct.dutiful :: s.inputs }
  | .error _ => s

end Sys2Proof.Machine
end

