-- ==== Sys2Proof/Safety.lean ====
section
/-!
DEFINITION. The terms claims are written in: the wire format as plain arithmetic on bytes (R60 to R67, R81), written apart
from the machine's own definitions; what an operation presents; the bytes a feed has to give; the legal outputs, the
running registers, and the invariant every step keeps.
-/

namespace Sys2Proof

/-- The class of an input (R67), decided by the bytes at its front. -/
inductive WireClass where
  /-- A value of this length stands at the front. -/
  | accepted (length : Nat)
  /-- The first three bytes have their continuation bits set. -/
  | outOfBounds
  /-- The input ends where a byte is still expected. -/
  | incomplete
  deriving DecidableEq, Repr

/-- The continuation bit is set: the byte is at least 0x80 (R60, R61). -/
abbrev Continues (b : Byte) : Prop := 128 ≤ b.toNat

/-- The classification table of R67. -/
def classify : List Byte → WireClass
  | [] => .incomplete
  | [b0] => if Continues b0 then .incomplete else .accepted 1
  | [b0, b1] => if Continues b0 then (if Continues b1 then .incomplete else .accepted 2) else .accepted 1
  | b0 :: b1 :: b2 :: _ =>
    if Continues b0 then
      (if Continues b1 then (if Continues b2 then .outOfBounds else .accepted 3) else .accepted 2)
    else .accepted 1

/-- The value of an accepted encoding (R64): `P_0 + 128*P_1 + 16384*(P_2 mod 4)`. That bits 6:2 of a third byte are
discarded is the spec's decision D9 (log 10). -/
def wireValue : List Byte → Nat
  | [b0] => b0.toNat % 128
  | [b0, b1] => b0.toNat % 128 + 128 * (b1.toNat % 128)
  | [b0, b1, b2] => b0.toNat % 128 + 128 * (b1.toNat % 128) + 16384 * (b2.toNat % 4)
  | _ => 0

/-- The length of a value's canonical encoding (R65, R82). -/
def canonicalLength (v : Value) : Nat :=
  if v.toNat < 0x80 then 1 else if v.toNat < 0x4000 then 2 else 3

/-- The canonical encoding of a value by its closed form (R81). -/
def canonicalForm (v : Value) : List Byte :=
  if v.toNat < 0x80 then [BitVec.ofNat 8 v.toNat]
  else if v.toNat < 0x4000 then [BitVec.ofNat 8 (128 + v.toNat % 128), BitVec.ofNat 8 (v.toNat / 128)]
  else [BitVec.ofNat 8 (128 + v.toNat % 128), BitVec.ofNat 8 (128 + v.toNat / 128 % 128),
    BitVec.ofNat 8 (v.toNat / 16384)]

/-- The characterisation of a canonical encoding among the accepted ones (R66). -/
def LooksCanonical : List Byte → Prop
  | [_] => True
  | [_, b1] => b1.toNat ≠ 0
  | [_, _, b2] => b2.toNat = 1 ∨ b2.toNat = 2 ∨ b2.toNat = 3
  | _ => False

namespace Machine

/-- The outputs of a failed transaction: STATUS and nothing else (R146). -/
abbrev Outputs.failure (status : BitVec 2) : Outputs := ⟨status, none, none, none, none⟩

/-- The outputs of a successful DECODE of this value and length (R104). -/
abbrev Outputs.decoded (value length : Nat) : Outputs :=
  ⟨0#2, none, none, some (BitVec.ofNat 16 value), some (BitVec.ofNat 2 length)⟩

/-- The outputs of a successful DECODE_READER or DECODE_STRICT of this value (R107, R110). -/
abbrev Outputs.valueOnly (value : Nat) : Outputs := ⟨0#2, none, none, some (BitVec.ofNat 16 value), none⟩

/-- The outputs of an ENCODE with these bytes (R80). -/
abbrev Outputs.encoded (bytes : List Byte) : Outputs :=
  ⟨0#2, some (BitVec.ofNat 2 bytes.length), some bytes, none, none⟩

/-- The operation completes in this state: exec answers a next state, which presents these outputs. -/
def Presents (i : Instr) (s : State) (o : Outputs) : Prop :=
  ∃ t, exec i s = .next t ∧ t.outputs = some o

/-- The bytes a source will deliver before it answers `Exhausted` (R67). -/
def deliverable : List Answer → List Byte
  | .byte b :: rest => b :: deliverable rest
  | .exhausted :: _ => []
  | [] => []

/-- The bytes available to a decode transaction (R67). -/
def available (s : State) : Feed → List Byte
  | .buffer buf => buf
  | .source src => deliverable (sourceAt s.sources src).answers

/-- The state at the end of a decode transaction's loop, before its outputs are presented. -/
abbrev decodeEnd (f : Feed) (s : State) : State := decodeRun f Config.maxBytes (beginDecode s)

/-- The relation of SHIFT and COUNT in a running decode transaction (R22, R23). -/
def RunningRegs (r : DecoderRegs) : Prop :=
  r.phase = .busy → (r.shift = 0#5 ∨ r.shift = 7#5 ∨ r.shift = 14#5) ∧ r.shift.toNat = 7 * r.count.toNat

/-- The canonical form of a source: an answer list does not end in `Exhausted`, which is what follows it anyway. -/
abbrev Source.wf (x : Source) : Prop := x.answers.getLast? ≠ some .exhausted

/-- The canonical form of the table of sources: names strictly rising, no entry equal to the source an unlisted name
stands for, every source in canonical form. -/
abbrev SourcesWf (m : List (Nat × Source)) : Prop :=
  (m.map Prod.fst).Pairwise (· < ·) ∧ ∀ c ∈ m, c.2 ≠ Source.empty ∧ c.2.wf

/-- Outputs that the tables of R70 and R144 allow. -/
def Outputs.Legal (o : Outputs) : Prop :=
  (o.status ≠ 0#2 → o = Outputs.failure o.status) ∧
  (o.status = 0#2 → (o.value.isSome ↔ o.bytes = none)) ∧
  (o.len.isSome ↔ o.bytes.isSome) ∧
  (∀ c, o.consumed = some c → o.value.isSome ∧ 1 ≤ c.toNat) ∧
  (∀ bs, o.bytes = some bs → 1 ≤ bs.length ∧ bs.length ≤ 3 ∧ o.len = some (BitVec.ofNat 2 bs.length) ∧
    classify bs = .accepted bs.length)

/-- The invariant every step keeps: the sources in canonical form, the outputs legal, OUT at most three bytes (R25). -/
def State.Inv (s : State) : Prop :=
  SourcesWf s.sources ∧ (∀ o, s.outputs = some o → o.Legal) ∧ s.enc.out.length ≤ 3

/-- A safe run steps from states in which the next input, if it is a command, breaks no duty (R174, R176). -/
def DutyKept (s : State) : Prop :=
  ∀ c w rest, s.inputs = .command c w :: rest → brokenDuty w (decode c) = none

end Machine

end Sys2Proof
end

