-- ==== Sys2Proof/Certificates/Slice0/Obligations.lean ====
section
/-!
DEFINITION. The statements for the provers, each `def Obligations.<Name> : Prop`, in the order of OBLIGATIONS.json.
-/

open Sys2Proof Sys2Proof.Machine

/-! ### Command format and the step -/

/-- R71 (the numbering is the spec's decision D3): every selector value is an operation. That a word of the table is read as its
selector alone, with the operand ports at rest (VALUE_IN 0, BUF empty, SRC 0), is the model's choice (log 18). -/
def Obligations.SelectorTableIsTotal : Prop :=
  (∀ v buf src, decode ⟨0b00#2, v, buf, src⟩ = .encode v ∧ decode ⟨0b01#2, v, buf, src⟩ = .decode buf ∧
    decode ⟨0b10#2, v, buf, src⟩ = .decodeReader src ∧ decode ⟨0b11#2, v, buf, src⟩ = .decodeStrict buf) ∧
  decodeTableWord 8 0 = some (.encode 0#16) ∧ decodeTableWord 8 1 = some (.decode []) ∧
  decodeTableWord 8 2 = some (.decodeReader 0) ∧ decodeTableWord 8 3 = some (.decodeStrict [])

/-- Decode of encode is the identity on every operation with every operand, and the encoder's commands are well formed
(rest values of unused ports: log 19). -/
def Obligations.EncodedCommandDecodesBack : Prop :=
  ∀ i : Instr, (encode i).WellFormed ∧ decode (encode i) = i

/-- Encode of decode is the identity on every well-formed command (log 19). -/
def Obligations.DecodedCommandEncodesBack : Prop :=
  ∀ c : Command, c.WellFormed → encode (decode c) = c

/-- R11, R48: a step takes the oldest command and runs exec of the operation it decodes to, when its caller keeps its
duties and no reset arrives. That what is issued is a queue, taken off before the operation runs, is the model's choice (log 2). -/
def Obligations.StepPerformsTheIssuedCommand : Prop :=
  ∀ (s : State) (c : Command) (w : Conduct) (rest : List Input), s.inputs = .command c w :: rest →
    brokenDuty w (decode c) = none → w.resetAfter = none → step s = exec (decode c) { s with inputs := rest }

/-- A table word placed where the next command is taken runs exactly the operation the decoder reads from it. The placing and
the reading of the word are the model's choices (log 17, log 18). -/
def Obligations.FetchedTableWordRunsItsOperation : Prop :=
  ∀ (s : State) (nbits w : Nat) (i : Instr), decodeTableWord nbits w = some i →
    step (s.withFetchWord nbits w) = exec i s

/-- Every step that answers a next state has taken exactly the oldest input, whatever it was. R48 and D17 say so of commands
alone. The model's choices: what is issued is a queue that also holds resets (log 2), a reset leaves the rest of it (log 15, unsafe),
and a step with nothing issued is idle (log 16). -/
def Obligations.StepTakesTheOldestInput : Prop :=
  ∀ s t : State, step s = .next t → t.inputs = s.inputs.tail

/-- R28, R170: with nothing issued, and at a reset between transactions, nothing is presented. The model's choices: the idle step
(log 16), the queue (log 2), and that a reset leaves the sources and the rest of the queue (log 15, unsafe). -/
def Obligations.IdleAndResetPresentNothing : Prop :=
  (∀ s : State, s.inputs = [] → ∃ t, step s = .next t ∧ t.outputs = none ∧ t.sources = s.sources ∧ t.inputs = []) ∧
  (∀ (s : State) (rest : List Input), s.inputs = .reset :: rest →
    ∃ t, step s = .next t ∧ t.outputs = none ∧ t.sources = s.sources ∧ t.inputs = rest)

/-- State.reset presents nothing (R28, R170). That nothing is issued there and that no source holds a byte are the model's
choices (log 2 and log 17, log 6): R31 and R32 make them the caller's, and a reset that arrives later leaves them
(IdleAndResetPresentNothing). The transaction registers' values there are the model's choice too (log 3) and are not stated. -/
def Obligations.ResetLeavesTheBlockIdle : Prop :=
  State.reset.outputs = none ∧ State.reset.inputs = [] ∧
  ∀ src, available State.reset (.source src) = []

/-- R173: a command issued in State.reset is performed by the very next step, and it presents its STATUS. The rest of that state
(registers, no sources: log 3, log 6) and the queue (log 2) are the model's choices. -/
def Obligations.FirstCommandRunsStraightAfterReset : Prop :=
  ∀ (c : Command) (rest : List Input),
    ∃ t o, step { State.reset with inputs := .command c Conduct.dutiful :: rest } = .next t ∧
      t.outputs = some o ∧ t.inputs = rest

/-- R102, R84, R140: every operation, in every state, ends with a next state that presents a STATUS: none can hang and no
error stops the machine. -/
def Obligations.EveryOperationEndsWithAStatus : Prop :=
  ∀ (i : Instr) (s : State), ∃ o, Presents i s o

/-- A step stops only when the caller breaks a duty, with the refusal of that duty alone (R174, R176; which duty binds which
operation: log 13), and never with a fault (R140 and R146 name no stop; the model's type of faults is empty: log 24). That a broken
duty is refused also where a reset abandons the transaction is the model's choice, for the spec gives no order (log 28). -/
def Obligations.StepStopsOnlyOnABrokenDuty : Prop :=
  (∀ (s : State) (f : Fault), step s ≠ .fault f) ∧
  (∀ (s : State) (r : Refusal), step s = .refused r ↔
    ∃ c w rest, s.inputs = .command c w :: rest ∧ brokenDuty w (decode c) = some r) ∧
  (∀ s : State, DutyKept s → ∃ t, step s = .next t)

/-- R174: an operand changed while ENCODE, DECODE or DECODE_STRICT runs gives the run no meaning; DECODE_READER reads no
such operand (log 13). Where a reset abandons that transaction as well, the refusal is the model's choice (log 28). -/
def Obligations.ChangedOperandIsRefused : Prop :=
  ∀ (s : State) (c : Command) (w : Conduct) (rest : List Input), s.inputs = .command c w :: rest →
    w.operandsHeld = false → (∀ src, decode c ≠ .decodeReader src) → step s = .refused .operandsChanged

/-- R176: a source that serves another transaction while DECODE_READER runs gives the run no meaning (log 13). Where a reset
abandons that transaction as well, the refusal is the model's choice (log 28). -/
def Obligations.SharedSourceIsRefused : Prop :=
  ∀ (s : State) (c : Command) (w : Conduct) (rest : List Input) (src : Nat), s.inputs = .command c w :: rest →
    decode c = .decodeReader src → w.sourceExclusive = false → step s = .refused .sourceShared

/-- R172: a transaction abandoned by a reset after `k` turns presents nothing, and every source it does not bind stays. The
source it binds has seen `n` requests, one for each turn that was made (the `k` turns, or fewer where the transaction had ended
before), has lost as many answers from the front, and keeps the advance made: exactly the COUNT that the abandoned transaction had
reached, the number of bytes among those answers, so between 0 and that COUNT. That the reset arrives after a number of
turns which the input names, and that the advance is all of that COUNT, is the model's choice (log 14; the queue: log 2). -/
def Obligations.ResetInsideATransactionPresentsNothing : Prop :=
  ∀ (s : State) (c : Command) (w : Conduct) (rest : List Input) (k : Nat), s.inputs = .command c w :: rest →
    brokenDuty w (decode c) = none → w.resetAfter = some k →
    ∃ t, step s = .next t ∧ t.outputs = none ∧ t.inputs = rest ∧
      (∀ src, decode c ≠ .decodeReader src → sourceAt t.sources src = sourceAt s.sources src) ∧
      (∀ src, decode c = .decodeReader src →
        let x := sourceAt s.sources src
        let whole := (sourceAt (decodeEnd (.source src) s).sources src).requests - x.requests
        let reached := (decodeRun (.source src) k (beginDecode s)).dec.count.toNat
        let n := min k whole
        sourceAt t.sources src = ⟨x.answers.drop n, x.position + reached, x.requests + n⟩ ∧
          1 ≤ whole ∧ whole ≤ 3 ∧ reached = (deliverable (x.answers.take n)).length)

/-! ### The encoder -/

/-- R80: ENCODE starts with V = VALUE_IN and OUT empty, and its bytes follow the loop: while the value is at least 0x80, a byte with its low seven bits and the
continuation bit set, then the value shifted right by 7; a last byte equal to what is left; 1 to 3 bytes in all. The six
corner cases. -/
def Obligations.EncodeFollowsItsLoop : Prop :=
  (∀ buf src v, decode ⟨0b00#2, v, buf, src⟩ = .encode v) ∧
  (∀ (v : Value) (s : State), (beginEncode v s).enc = ⟨v, []⟩) ∧
  (∃ out : Value → List Byte,
    (∀ v, out v = if 0x80#16 ≤ v then (0x80#8 ||| (v.extractLsb' 0 7).setWidth 8) :: out (v >>> 7) else [v.setWidth 8]) ∧
    (∀ v, 1 ≤ (out v).length ∧ (out v).length ≤ 3) ∧
    (∀ v s, Presents (.encode v) s ⟨0#2, some (BitVec.ofNat 2 (out v).length), some (out v), none, none⟩)) ∧
  (∀ s, Presents (.encode 0x0000#16) s (.encoded [0x00#8]) ∧ Presents (.encode 0x007F#16) s (.encoded [0x7F#8]) ∧
    Presents (.encode 0x0080#16) s (.encoded [0x80#8, 0x01#8]) ∧
    Presents (.encode 0x3FFF#16) s (.encoded [0xFF#8, 0x7F#8]) ∧
    Presents (.encode 0x4000#16) s (.encoded [0x80#8, 0x80#8, 0x01#8]) ∧
    Presents (.encode 0xFFFF#16) s (.encoded [0xFF#8, 0xFF#8, 0x03#8]))

/-- R81: the closed form of ENCODE, for every value and state, with its frame: the sources and the queue unchanged. -/
def Obligations.EncodeClosedForm : Prop :=
  ∀ (v : Value) (s : State), ∃ t, exec (.encode v) s = .next t ∧ t.outputs = some (.encoded (canonicalForm v)) ∧
    t.sources = s.sources ∧ t.inputs = s.inputs

/-- R82: LEN is 1 iff v < 0x80, 2 iff 0x80 <= v < 0x4000, 3 iff v >= 0x4000; the loop runs exactly LEN - 1 times: after j
turns a further pass is due iff j < LEN - 1, and that is at most 2. -/
def Obligations.EncodeLengthBoundaries : Prop :=
  ∀ (v : Value) (s : State), ∃ t l bs, exec (.encode v) s = .next t ∧
    t.outputs = some ⟨0#2, some l, some bs, none, none⟩ ∧ bs.length = l.toNat ∧
    (l.toNat = 1 ↔ v.toNat < 0x80) ∧ (l.toNat = 2 ↔ 0x80 ≤ v.toNat ∧ v.toNat < 0x4000) ∧
    (l.toNat = 3 ↔ 0x4000 ≤ v.toNat) ∧ l.toNat - 1 ≤ 2 ∧
    ∀ j : Nat, (0x80 ≤ (encodeRun j (beginEncode v s)).enc.v.toNat ↔ j < l.toNat - 1)

/-- R83: ENCODE is a function of its operand alone, injective, and no accepted encoding of the value is shorter; one as
long is the same bytes unless it is a third byte with bits 6:2 set, which decision D9 makes decode to the same value (log 27). -/
def Obligations.EncodeIsMinimal : Prop :=
  ∃ bytes : Value → List Byte, (∀ v s, Presents (.encode v) s (.encoded (bytes v))) ∧
    (∀ v w, bytes v = bytes w → v = w) ∧
    (∀ v buf length, classify buf = .accepted length → wireValue (buf.take length) = v.toNat →
      (bytes v).length ≤ length ∧
      (length = (bytes v).length → (∀ b2, buf[2]? = some b2 → length = 3 → b2.toNat < 4) → buf.take length = bytes v))

/-- R84: ENCODE never fails: STATUS is OK for every value in every state, and the sink takes every byte. -/
def Obligations.EncodeNeverFails : Prop :=
  (∀ (v : Value) (s : State), ∃ t o, exec (.encode v) s = .next t ∧ t.outputs = some o ∧ o.status = 0#2 ∧
    o.status ≠ 1#2 ∧ o.status ≠ 2#2 ∧ o.status ≠ 3#2) ∧
  (∀ (b : Byte) (s : State), (emitByte b s).enc.out = s.enc.out ++ [b])

/-- R85: every byte but the last is 0x80 or more, the last is 0x7F or less; with LEN = 2 it is not 0x00, with LEN = 3 it is 0x01,
0x02 or 0x03. -/
def Obligations.EncodeOutputByteRanges : Prop :=
  ∀ (v : Value) (s : State), ∃ front last, Presents (.encode v) s (.encoded (front ++ [last])) ∧
    (∀ b ∈ front, 0x80 ≤ b.toNat) ∧ last.toNat ≤ 0x7F ∧
    (front.length = 1 → 0x01 ≤ last.toNat) ∧ (front.length = 2 → 0x01 ≤ last.toNat ∧ last.toNat ≤ 0x03)

/-- R40, R60: byte k of ENCODE's output carries value bits 7k+6 : 7k, least significant group first, and its bit 7 is set
exactly when another byte follows. -/
def Obligations.EncodedByteCarriesItsGroup : Prop :=
  ∀ (v : Value) (s : State), ∃ bs, Presents (.encode v) s (.encoded bs) ∧
    ∀ (k : Nat) (b : Byte), bs[k]? = some b →
      (∀ j, j < 7 → b.getLsbD j = v.getLsbD (7 * k + j)) ∧ (b.getLsbD 7 = true ↔ k + 1 < bs.length)

/-! ### The decoder's byte step and loop -/

/-- R100: the byte step, on every content of the registers. The payload is cut to 16 bits; the shift bound is checked
with exact addition; there is no step from Done or Failed. -/
def Obligations.ByteStepRule : Prop :=
  ∀ r : DecoderRegs,
    (r.phase = .busy → byteStep .exhausted r = { r with phase := .failed .unexpectedEndOfInput }) ∧
    (r.phase = .busy → ∀ b : Byte,
      byteStep (.byte b) r =
        { count := r.count + 1
          result := r.result ||| ((b.extractLsb' 0 7).setWidth 16 <<< r.shift.toNat)
          phase := if b.getLsbD 7 = false then .done
            else if r.shift.toNat + 7 ≥ 16 then .failed .encodingOutOfBounds else .busy
          shift := if b.getLsbD 7 = true ∧ r.shift.toNat + 7 < 16 then r.shift + 7#5 else r.shift }) ∧
    (r.phase ≠ .busy → ∀ input, byteStep input r = r)

/-- R22, R23: a running transaction has SHIFT in 0, 7, 14 and SHIFT = 7 * COUNT: it holds at the start, every byte step keeps
it, and from such registers a byte step adds 1 to COUNT exactly. -/
def Obligations.RunningShiftIsSevenTimesCount : Prop :=
  (∀ s : State, RunningRegs (beginDecode s).dec) ∧
  (∀ (r : DecoderRegs) (input : Answer), RunningRegs r → RunningRegs (byteStep input r)) ∧
  (∀ (r : DecoderRegs) (b : Byte), RunningRegs r → r.phase = .busy →
    (byteStep (.byte b) r).count.toNat = r.count.toNat + 1)

/-- R24: from Done and Failed the loop takes no byte: the whole state, the sources with it, stays as it is. -/
def Obligations.FinalPhasesTakeNoByte : Prop :=
  ∀ (f : Feed) (n : Nat) (s : State), s.dec.phase ≠ .busy → decodeRun f n s = s

/-- R102: three byte steps end every decode transaction, from a buffer and from a source, and more would change nothing. -/
def Obligations.DecodeEndsWithinThreeSteps : Prop :=
  ∀ (f : Feed) (s : State), (decodeEnd f s).dec.phase ≠ .busy ∧
    ∀ n, decodeRun f (Config.maxBytes + n) (beginDecode s) = decodeEnd f s

/-- R103: COUNT at the end of a decode transaction, by the way it ended, over the bytes available to it. -/
def Obligations.CountAtTheEndOfADecode : Prop :=
  ∀ (f : Feed) (s : State), let t := decodeEnd f s
    let front := available s f
    (t.dec.phase = .done → ∃ b, front[t.dec.count.toNat - 1]? = some b ∧ ¬ Continues b ∧ 1 ≤ t.dec.count.toNat ∧
      ∀ b ∈ front.take (t.dec.count.toNat - 1), Continues b) ∧
    (t.dec.phase = .failed .unexpectedEndOfInput → t.dec.count.toNat = front.length ∧ front.length ≤ 2 ∧
      ∀ b ∈ front, Continues b) ∧
    (t.dec.phase = .failed .encodingOutOfBounds → t.dec.count.toNat = 3) ∧
    t.dec.phase ≠ .failed .trailingData

/-- R171: transactions start from their initial values, and the result of an operation depends on its operands and
the source's answers alone, whatever ran before. -/
def Obligations.ResultDependsOnOperandsAlone : Prop :=
  (∀ s : State, (beginDecode s).dec = ⟨0#16, 0#5, 0#2, .busy⟩) ∧
  (∀ (v : Value) (s : State), (beginEncode v s).enc = ⟨v, []⟩) ∧
  (∀ (i : Instr) (s1 s2 : State),
    (∀ src, i = .decodeReader src → (sourceAt s1.sources src).answers = (sourceAt s2.sources src).answers) →
    ∃ t1 t2, exec i s1 = .next t1 ∧ exec i s2 = .next t2 ∧ t1.outputs = t2.outputs)

/-! ### DECODE, DECODE_READER, DECODE_STRICT -/

/-- R67, R64, R104: DECODE by the class of its buffer, in every state (the value of a third byte with bits 6:2 set: decision D9,
log 10). -/
def Obligations.DecodeFollowsTheWireClasses : Prop :=
  ∀ (buf : List Byte) (s : State),
    (∀ length, classify buf = .accepted length →
      Presents (.decode buf) s (.decoded (wireValue (buf.take length)) length)) ∧
    (classify buf = .outOfBounds → Presents (.decode buf) s (.failure 2#2)) ∧
    (classify buf = .incomplete → Presents (.decode buf) s (.failure 1#2))

/-- R63: the length is told by the continuation bits alone, L being the count DECODE consumes. -/
def Obligations.ContinuationBitsTellTheLength : Prop :=
  ∀ (s : State) (buf : List Byte),
    (∀ b0 rest, buf = b0 :: rest → b0.getLsbD 7 = false → ∃ v, Presents (.decode buf) s (.decoded v 1)) ∧
    (∀ b0 b1 rest, buf = b0 :: b1 :: rest → b0.getLsbD 7 = true → b1.getLsbD 7 = false →
      ∃ v, Presents (.decode buf) s (.decoded v 2)) ∧
    (∀ b0 b1 b2 rest, buf = b0 :: b1 :: b2 :: rest → b0.getLsbD 7 = true → b1.getLsbD 7 = true →
      b2.getLsbD 7 = false → ∃ v, Presents (.decode buf) s (.decoded v 3)) ∧
    (∀ b0 b1 b2 rest, buf = b0 :: b1 :: b2 :: rest → b0.getLsbD 7 = true → b1.getLsbD 7 = true →
      b2.getLsbD 7 = true → Presents (.decode buf) s (.failure 2#2)) ∧
    (buf.length < 3 → (∀ b ∈ buf, b.getLsbD 7 = true) → Presents (.decode buf) s (.failure 1#2))

/-- R105 (decision D9, log 10): a terminating third byte gives its bits 1:0 as value bits 15:14 and nothing else, so that bits
6:2 raise no error and do not reach the value. -/
def Obligations.ThirdByteGivesTwoBits : Prop :=
  ∀ (s : State) (b0 b1 b2 : Byte) (rest : List Byte), b0.getLsbD 7 = true → b1.getLsbD 7 = true →
    b2.getLsbD 7 = false → ∃ v : Value, Presents (.decode (b0 :: b1 :: b2 :: rest)) s ⟨0#2, none, none, some v, some 3#2⟩ ∧
      v.extractLsb' 14 2 = b2.extractLsb' 0 2 ∧ v.extractLsb' 7 7 = b1.extractLsb' 0 7 ∧
      v.extractLsb' 0 7 = b0.extractLsb' 0 7

/-- R106 (decision D13): all three decode operations accept every encoding of an accepted class, padded or not. -/
def Obligations.PaddedEncodingsAreAccepted : Prop :=
  ∀ (s : State) (buf : List Byte) (length : Nat), classify buf = .accepted length →
    (∃ t o, exec (.decode buf) s = .next t ∧ t.outputs = some o ∧ o.status = 0#2) ∧
    (∃ t o, exec (.decodeStrict (buf.take length)) s = .next t ∧ t.outputs = some o ∧ o.status = 0#2) ∧
    (∀ src, deliverable (sourceAt s.sources src).answers = buf →
      ∃ t o, exec (.decodeReader src) s = .next t ∧ t.outputs = some o ∧ o.status = 0#2)

/-- R107, R108: DECODE_READER by the class of the bytes its source will deliver: its outputs, the advance of the source, the
number of requests and the answers left (the advance after an error: decision D10, log 6). -/
def Obligations.DecodeReaderFollowsTheWireClasses : Prop :=
  ∀ (src : Nat) (s : State), let x := sourceAt s.sources src
    let front := deliverable x.answers
    (∀ length, classify front = .accepted length →
      ∃ t, exec (.decodeReader src) s = .next t ∧ t.outputs = some (.valueOnly (wireValue (front.take length))) ∧
        sourceAt t.sources src = ⟨x.answers.drop length, x.position + length, x.requests + length⟩) ∧
    (classify front = .outOfBounds →
      ∃ t, exec (.decodeReader src) s = .next t ∧ t.outputs = some (.failure 2#2) ∧
        sourceAt t.sources src = ⟨x.answers.drop 3, x.position + 3, x.requests + 3⟩) ∧
    (classify front = .incomplete →
      ∃ t, exec (.decodeReader src) s = .next t ∧ t.outputs = some (.failure 1#2) ∧
        sourceAt t.sources src =
          ⟨x.answers.drop (front.length + 1), x.position + front.length, x.requests + front.length + 1⟩)

/-- R109: DECODE_READER and DECODE agree on STATUS and VALUE when the source delivers the buffer's bytes, and the source
advances by the COUNT that DECODE reaches. -/
def Obligations.ReaderAgreesWithBuffer : Prop :=
  ∀ (src : Nat) (s : State), let buf := deliverable (sourceAt s.sources src).answers
    ∃ t u o p, exec (.decodeReader src) s = .next t ∧ exec (.decode buf) s = .next u ∧
      t.outputs = some o ∧ u.outputs = some p ∧ o.status = p.status ∧ o.value = p.value ∧
      (sourceAt t.sources src).position =
        (sourceAt s.sources src).position + (decodeEnd (.buffer buf) s).dec.count.toNat

/-- R110, R145: DECODE_STRICT by the class of its buffer: decode errors first, then TrailingData, else the value, which fills
the buffer. -/
def Obligations.StrictDecodeFollowsTheWireClasses : Prop :=
  ∀ (buf : List Byte) (s : State),
    (classify buf = .accepted buf.length → Presents (.decodeStrict buf) s (.valueOnly (wireValue buf))) ∧
    (∀ length, classify buf = .accepted length → length < buf.length →
      Presents (.decodeStrict buf) s (.failure 3#2)) ∧
    (classify buf = .outOfBounds → Presents (.decodeStrict buf) s (.failure 2#2)) ∧
    (classify buf = .incomplete → Presents (.decodeStrict buf) s (.failure 1#2))

/-- R42, R111: bytes after the value do not matter to DECODE, and no operation looks past the third byte: DECODE depends on
the first three bytes alone, DECODE_STRICT on those and the length. -/
def Obligations.BytesPastTheValueAreNotRead : Prop :=
  (∀ (s : State) (buf more : List Byte) (v : Value) (c : BitVec 2),
    Presents (.decode buf) s ⟨0#2, none, none, some v, some c⟩ →
    Presents (.decode (buf.take c.toNat ++ more)) s ⟨0#2, none, none, some v, some c⟩) ∧
  (∀ (s : State) (a b : List Byte) (o : Outputs), a.take 3 = b.take 3 →
    (Presents (.decode a) s o ↔ Presents (.decode b) s o)) ∧
  (∀ (s : State) (a b : List Byte) (o : Outputs), a.take 3 = b.take 3 → a.length = b.length →
    (Presents (.decodeStrict a) s o ↔ Presents (.decodeStrict b) s o))

/-! ### Errors -/

/-- R141: UnexpectedEndOfInput is presented by the three decode operations exactly when the bytes available are none, or
one that continues, or two that continue: when the byte step gets `Exhausted` in phase Busy, which for a buffer means that
COUNT has reached n. -/
def Obligations.UnexpectedEndExactlyWhenBytesRunOut : Prop :=
  ∀ (s : State) (f : Feed), let front := available s f
    let runsOut := front.length < 3 ∧ ∀ b ∈ front, b.getLsbD 7 = true
    ((decodeEnd f s).dec.phase = .failed .unexpectedEndOfInput ↔ runsOut) ∧
    (∀ buf, f = .buffer buf → (Presents (.decode buf) s (.failure 1#2) ↔ runsOut) ∧
      (Presents (.decodeStrict buf) s (.failure 1#2) ↔ runsOut)) ∧
    (∀ src, f = .source src → (Presents (.decodeReader src) s (.failure 1#2) ↔ runsOut)) ∧
    (∀ r : DecoderRegs, r.phase = .busy → (byteStep .exhausted r).phase = .failed .unexpectedEndOfInput) ∧
    (∀ (buf : List Byte) (n : Nat), bufferAnswer buf n = .exhausted ↔ buf.length ≤ n)

/-- R142: EncodingOutOfBounds is presented by the three decode operations exactly when the first three bytes available
continue; a fourth byte, or none, makes no difference, and a source is not asked for it. -/
def Obligations.OutOfBoundsExactlyOnAThirdContinuation : Prop :=
  ∀ (s : State) (f : Feed), let front := available s f
    let tooLong := ∃ b0 b1 b2 rest, front = b0 :: b1 :: b2 :: rest ∧ b0.getLsbD 7 = true ∧ b1.getLsbD 7 = true ∧
      b2.getLsbD 7 = true
    ((decodeEnd f s).dec.phase = .failed .encodingOutOfBounds ↔ tooLong) ∧
    (∀ buf, f = .buffer buf → (Presents (.decode buf) s (.failure 2#2) ↔ tooLong) ∧
      (Presents (.decodeStrict buf) s (.failure 2#2) ↔ tooLong)) ∧
    (∀ src, f = .source src → (Presents (.decodeReader src) s (.failure 2#2) ↔ tooLong) ∧
      (tooLong → (sourceAt (decodeEnd f s).sources src).requests = (sourceAt s.sources src).requests + 3)) ∧
    (∀ (r : DecoderRegs) (b : Byte), r.phase = .busy → r.shift = 14#5 → b.getLsbD 7 = true →
      (byteStep (.byte b) r).phase = .failed .encodingOutOfBounds)

/-- R143: TrailingData is presented by DECODE_STRICT alone, exactly when the decode of its buffer succeeds with fewer bytes
consumed than the buffer holds. -/
def Obligations.TrailingDataOnlyFromStrictDecode : Prop :=
  (∀ (s : State) (buf : List Byte), Presents (.decodeStrict buf) s (.failure 3#2) ↔
    ∃ v c, Presents (.decode buf) s ⟨0#2, none, none, some v, some c⟩ ∧ c.toNat < buf.length) ∧
  (∀ (s : State) (i : Instr) (o : Outputs), (∀ buf, i ≠ .decodeStrict buf) → Presents i s o → o.status ≠ 3#2)

/-- R70, R144: every operation presents exactly the outputs its row allows: with a status other than OK nothing else; ENCODE its
LEN and BYTES; DECODE its VALUE and CONSUMED of 1 to 3; the other two their VALUE alone. -/
def Obligations.OutputsArePresentedByTheTable : Prop :=
  ∀ (i : Instr) (s t : State) (o : Outputs), exec i s = .next t → t.outputs = some o →
    o.Legal ∧
    (∀ v, i = .encode v → o.bytes.isSome) ∧
    (∀ buf, i = .decode buf → o.status = 0#2 → o.value.isSome ∧ o.consumed.isSome) ∧
    (∀ src, i = .decodeReader src → o.status = 0#2 → o.value.isSome ∧ o.consumed = none) ∧
    (∀ buf, i = .decodeStrict buf → o.status = 0#2 → o.value.isSome ∧ o.consumed = none)

/-- R146: raising an error presents the code of the error and nothing else; it writes no source and takes nothing from
the queue. -/
def Obligations.ErrorEntryPresentsOnlyTheStatus : Prop :=
  ∀ (e : ErrorKind) (s : State),
    (raiseError e s).outputs = some (.failure (match e with
      | .unexpectedEndOfInput => 1#2
      | .encodingOutOfBounds => 2#2
      | .trailingData => 3#2)) ∧
    (raiseError e s).sources = s.sources ∧ (raiseError e s).inputs = s.inputs

/-! ### Frames and the byte sources -/

/-- R30, R42, R44: ENCODE, DECODE and DECODE_STRICT touch no byte source and take nothing from what is issued (the queue: log 2). Of
the transaction registers, unspecified afterwards by R170, nothing is stated but that OUT keeps the bound R25 gives it, which is the
model's inference (log 5). -/
def Obligations.BufferOperationsLeaveTheSources : Prop :=
  ∀ (i : Instr) (s : State), (∀ src, i ≠ .decodeReader src) →
    ∃ t, exec i s = .next t ∧ t.sources = s.sources ∧ t.inputs = s.inputs ∧ t.enc.out.length ≤ 3

/-- R30, R43: DECODE_READER touches the source it binds and no other; of that source it takes one to three answers from
the front, and the position advances by the bytes among them (the form of a source: log 6). Of the transaction registers, unspecified
afterwards by R170, nothing is stated but that OUT keeps the bound R25 gives it, which is the model's inference (log 5). -/
def Obligations.ReaderTouchesOnlyItsSource : Prop :=
  ∀ (src : Nat) (s t : State), exec (.decodeReader src) s = .next t →
    t.inputs = s.inputs ∧ t.enc.out.length ≤ 3 ∧
    (∀ other, other ≠ src → sourceAt t.sources other = sourceAt s.sources other) ∧
    ∃ n, 1 ≤ n ∧ n ≤ 3 ∧ (sourceAt t.sources src).requests = (sourceAt s.sources src).requests + n ∧
      (sourceAt t.sources src).answers = (sourceAt s.sources src).answers.drop n ∧
      (sourceAt t.sources src).position =
        (sourceAt s.sources src).position + (deliverable ((sourceAt s.sources src).answers.take n)).length

/-- R43: ReadByte delivers and consumes the next byte, advancing the position by 1; `Exhausted` consumes nothing; every request
is seen by the source, and no other source changes. -/
def Obligations.ReadByteConsumesOneByte : Prop :=
  ∀ (src : Nat) (s : State), let x := sourceAt s.sources src
    let y := sourceAt (readByte src s).2.sources src
    (∀ b rest, x.answers = .byte b :: rest →
      (readByte src s).1 = .byte b ∧ y = ⟨rest, x.position + 1, x.requests + 1⟩) ∧
    (deliverable x.answers = [] →
      (readByte src s).1 = .exhausted ∧ y.position = x.position ∧ y.requests = x.requests + 1) ∧
    (∀ other, other ≠ src → sourceAt (readByte src s).2.sources other = sourceAt s.sources other)

/-- The table of sources is a faithful store: what is put under a name is read back, other names are left, the canonical form is
kept, and two tables in that form that read alike are equal (log 6). -/
def Obligations.SourceTableReadsBack : Prop :=
  (∀ (m : List (Nat × Source)) (k : Nat) (x : Source), SourcesWf m → x.wf →
    SourcesWf (putSource m k x) ∧ sourceAt (putSource m k x) k = x ∧
    ∀ j, j ≠ k → sourceAt (putSource m k x) j = sourceAt m j) ∧
  (∀ m n : List (Nat × Source), SourcesWf m → SourcesWf n → (∀ k, sourceAt m k = sourceAt n k) → m = n)

/-! ### Laws of the block -/

/-- R112: decoding what ENCODE presents gives the value back, in every state and by all three decode operations; a source that
yields the bytes (and anything after them) is advanced by LEN. -/
def Obligations.DecodeInvertsEncode : Prop :=
  ∀ (v : Value) (s : State), ∃ bs, Presents (.encode v) s (.encoded bs) ∧
    (∀ s', Presents (.decode bs) s' ⟨0#2, none, none, some v, some (BitVec.ofNat 2 bs.length)⟩) ∧
    (∀ s', Presents (.decodeStrict bs) s' ⟨0#2, none, none, some v, none⟩) ∧
    (∀ s' src rest, (sourceAt s'.sources src).answers = bs.map .byte ++ rest →
      ∃ t, exec (.decodeReader src) s' = .next t ∧ t.outputs = some ⟨0#2, none, none, some v, none⟩ ∧
        (sourceAt t.sources src).position = (sourceAt s'.sources src).position + bs.length ∧
        (sourceAt t.sources src).answers = rest)

/-- R66, R178: among accepted encodings the canonical ones are those ENCODE gives back from the decoded value, and they are told
by their last byte. -/
def Obligations.CanonicalExactlyWhenReencodedTheSame : Prop :=
  ∀ (s : State) (buf : List Byte) (v : Value) (c : BitVec 2),
    Presents (.decode buf) s ⟨0#2, none, none, some v, some c⟩ →
    (Presents (.encode v) s (.encoded (buf.take c.toNat)) ↔ LooksCanonical (buf.take c.toNat))

/-- R175: successive values. A DECODE on the buffer after the consumed bytes, and a second DECODE_READER on the same source, give
the second of two concatenated encodings. -/
def Obligations.SuccessiveValuesDecodeInOrder : Prop :=
  (∀ (v w : Value) (rest : List Byte) (s s' : State),
    let buf := canonicalForm v ++ (canonicalForm w ++ rest)
    ∃ c : BitVec 2, Presents (.decode buf) s ⟨0#2, none, none, some v, some c⟩ ∧
      ∃ d : BitVec 2, Presents (.decode (buf.drop c.toNat)) s' ⟨0#2, none, none, some w, some d⟩ ∧
        (buf.drop c.toNat).drop d.toNat = rest) ∧
  (∀ (v w : Value) (rest : List Answer) (src : Nat) (s : State),
    (sourceAt s.sources src).answers = (canonicalForm v ++ canonicalForm w).map .byte ++ rest →
    ∃ t u, exec (.decodeReader src) s = .next t ∧ t.outputs = some ⟨0#2, none, none, some v, none⟩ ∧
      exec (.decodeReader src) t = .next u ∧ u.outputs = some ⟨0#2, none, none, some w, none⟩ ∧
      (sourceAt u.sources src).answers = rest)

/-- R68, of what the operations present in any state: of one, two and three bytes, those that DECODE accepts as one whole
encoding (STATUS OK, CONSUMED the length) number 128, 16384 and 2097152; the buffers DECODE_STRICT accepts, of whatever
length, number 2113664; the outputs BYTES of ENCODE over all values number 65536; and DECODE reaches every value. -/
def Obligations.CountsOfEncodings : Prop :=
  ∀ s : State,
    {b : Byte | ∃ v, Presents (.decode [b]) s ⟨0#2, none, none, some v, some 1#2⟩}.ncard = 128 ∧
    {p : Byte × Byte | ∃ v, Presents (.decode [p.1, p.2]) s ⟨0#2, none, none, some v, some 2#2⟩}.ncard = 16384 ∧
    {p : Byte × Byte × Byte | ∃ v, Presents (.decode [p.1, p.2.1, p.2.2]) s
      ⟨0#2, none, none, some v, some 3#2⟩}.ncard = 2097152 ∧
    {buf : List Byte | ∃ o, Presents (.decodeStrict buf) s o ∧ o.status = 0#2}.ncard = 2113664 ∧
    {bytes : List Byte | ∃ v o, Presents (.encode v) s o ∧ o.bytes = some bytes}.ncard = 65536 ∧
    (∀ v : Value, ∃ buf c, Presents (.decode buf) s ⟨0#2, none, none, some v, some c⟩)

/-! ### The invariant -/

/-- State.reset meets the invariant. (Its registers and its sources are the model's choices: log 3, log 6.) -/
def Obligations.ResetMeetsTheInvariant : Prop := State.reset.Inv

/-- Every step keeps the invariant, from every state that meets it: the sources in canonical form (log 6), the outputs legal by
R70 and R144, OUT within the three bytes of R25 (outside a transaction that bound is the model's inference: log 5). -/
def Obligations.StepKeepsTheInvariant : Prop :=
  ∀ s t : State, s.Inv → step s = .next t → t.Inv
end

