-- ==== Sys2Proof/Laws/State.lean ====
section
/-!
SUPPORT. What each shared operation does to each field of the state, one lemma per field, so that no later proof unfolds
a record update.
-/

namespace Sys2Proof.Machine

variable (s : State) (o : Outputs) (e : ErrorKind) (v : Value) (b : Byte)

@[simp] theorem retire_outputs : (retire s).outputs = s.outputs := rfl
@[simp] theorem retire_sources : (retire s).sources = s.sources := rfl
@[simp] theorem retire_inputs : (retire s).inputs = s.inputs := rfl
@[simp] theorem retire_draws : (retire s).draws = s.draws + 1 := rfl
theorem retire_out_length : (retire s).enc.out.length ≤ 3 := by
  simp [retire, List.length_take]

@[simp] theorem finish_outputs : (finish o s).outputs = some o := rfl
@[simp] theorem finish_sources : (finish o s).sources = s.sources := rfl
@[simp] theorem finish_inputs : (finish o s).inputs = s.inputs := rfl
@[simp] theorem finish_draws : (finish o s).draws = s.draws + 1 := rfl
theorem finish_out_length : (finish o s).enc.out.length ≤ 3 := retire_out_length _

@[simp] theorem raiseError_outputs : (raiseError e s).outputs = some (.failure (statusCode e)) := rfl
@[simp] theorem raiseError_sources : (raiseError e s).sources = s.sources := rfl
@[simp] theorem raiseError_inputs : (raiseError e s).inputs = s.inputs := rfl
@[simp] theorem raiseError_draws : (raiseError e s).draws = s.draws + 1 := rfl
theorem raiseError_out_length : (raiseError e s).enc.out.length ≤ 3 := retire_out_length _

@[simp] theorem beginDecode_dec : (beginDecode s).dec = DecoderRegs.start := rfl
@[simp] theorem beginDecode_enc : (beginDecode s).enc = s.enc := rfl
@[simp] theorem beginDecode_outputs : (beginDecode s).outputs = none := rfl
@[simp] theorem beginDecode_sources : (beginDecode s).sources = s.sources := rfl
@[simp] theorem beginDecode_inputs : (beginDecode s).inputs = s.inputs := rfl
@[simp] theorem beginDecode_draws : (beginDecode s).draws = s.draws := rfl

@[simp] theorem beginEncode_dec : (beginEncode v s).dec = s.dec := rfl
@[simp] theorem beginEncode_enc : (beginEncode v s).enc = ⟨v, []⟩ := rfl
@[simp] theorem beginEncode_outputs : (beginEncode v s).outputs = none := rfl
@[simp] theorem beginEncode_sources : (beginEncode v s).sources = s.sources := rfl
@[simp] theorem beginEncode_inputs : (beginEncode v s).inputs = s.inputs := rfl
@[simp] theorem beginEncode_draws : (beginEncode v s).draws = s.draws := rfl

@[simp] theorem emitByte_out : (emitByte b s).enc.out = s.enc.out ++ [b] := rfl
@[simp] theorem emitByte_v : (emitByte b s).enc.v = s.enc.v := rfl
@[simp] theorem emitByte_dec : (emitByte b s).dec = s.dec := rfl
@[simp] theorem emitByte_outputs : (emitByte b s).outputs = s.outputs := rfl
@[simp] theorem emitByte_sources : (emitByte b s).sources = s.sources := rfl
@[simp] theorem emitByte_inputs : (emitByte b s).inputs = s.inputs := rfl

@[simp] theorem encodePass_out : (encodePass s).enc.out = s.enc.out ++ [groupByte s.enc.v] := rfl
@[simp] theorem encodePass_v : (encodePass s).enc.v = s.enc.v >>> 7 := rfl
@[simp] theorem encodePass_outputs : (encodePass s).outputs = s.outputs := rfl
@[simp] theorem encodePass_sources : (encodePass s).sources = s.sources := rfl
@[simp] theorem encodePass_inputs : (encodePass s).inputs = s.inputs := rfl

@[simp] theorem idle_outputs : (idle s).outputs = none := rfl
@[simp] theorem idle_sources : (idle s).sources = s.sources := rfl
@[simp] theorem idle_inputs : (idle s).inputs = s.inputs := rfl
@[simp] theorem idle_enc : (idle s).enc = s.enc := rfl

@[simp] theorem resetBlock_outputs : (resetBlock s).outputs = none := rfl
@[simp] theorem resetBlock_sources : (resetBlock s).sources = s.sources := rfl
@[simp] theorem resetBlock_inputs : (resetBlock s).inputs = s.inputs := rfl

@[simp] theorem encodeRun_sources : ∀ (n : Nat) (s : State), (encodeRun n s).sources = s.sources
  | 0, _ => rfl
  | n + 1, s => by
    unfold encodeRun
    split
    · rw [encodeRun_sources n, encodePass_sources]
    · rfl

@[simp] theorem encodeRun_inputs : ∀ (n : Nat) (s : State), (encodeRun n s).inputs = s.inputs
  | 0, _ => rfl
  | n + 1, s => by
    unfold encodeRun
    split
    · rw [encodeRun_inputs n, encodePass_inputs]
    · rfl

@[simp] theorem encodeRun_outputs : ∀ (n : Nat) (s : State), (encodeRun n s).outputs = s.outputs
  | 0, _ => rfl
  | n + 1, s => by
    unfold encodeRun
    split
    · rw [encodeRun_outputs n, encodePass_outputs]
    · rfl

end Sys2Proof.Machine
end

