-- ==== Sys2Proof/Laws/Sources.lean ====
section
/-!
SUPPORT. The table of byte sources as a store (read after write, other names, the canonical form), and what one
`ReadByte()` does.
-/

namespace Sys2Proof.Machine

theorem ask_ne_empty (x : Source) : x.ask.2 ≠ Source.empty := by
  rcases x with ⟨_ | ⟨_ | _, _⟩, p, r⟩ <;> simp [Source.ask, Source.empty]

theorem sourceAt_put_same {x : Source} (hx : x ≠ Source.empty) :
    ∀ (m : List (Nat × Source)) (k : Nat), sourceAt (putSource m k x) k = x
  | [], k => by simp [putSource, hx, sourceAt]
  | (j, y) :: rest, k => by
    simp only [putSource, if_neg hx]
    split
    · simp [sourceAt]
    · split
      · simp [sourceAt]
      · rename_i h1 h2
        simp [sourceAt, Ne.symm h2, sourceAt_put_same hx rest k]

theorem sourceAt_put_other (x : Source) {j k : Nat} (hjk : j ≠ k) :
    ∀ m : List (Nat × Source), sourceAt (putSource m k x) j = sourceAt m j
  | [] => by
    unfold putSource
    split <;> simp [sourceAt, Ne.symm hjk]
  | (i, y) :: rest => by
    unfold putSource
    split
    · split <;> simp [sourceAt, Ne.symm hjk]
    · split
      · rename_i h
        split <;> simp [sourceAt, Ne.symm hjk, h.symm]
      · simp only [sourceAt, sourceAt_put_other x hjk rest]

theorem put_put {x : Source} (hx : x ≠ Source.empty) (y : Source) :
    ∀ (m : List (Nat × Source)) (k : Nat), putSource (putSource m k x) k y = putSource m k y
  | [], k => by simp [putSource, hx]
  | (j, z) :: rest, k => by
    by_cases h1 : k < j
    · simp [putSource, h1, hx]
    · by_cases h2 : k = j
      · simp [putSource, h2, hx]
      · simp [putSource, h1, h2, put_put hx y rest k]

/-- A name below every listed name reads as the empty source. -/
theorem sourceAt_below {m : List (Nat × Source)} {k : Nat} (h : ∀ c ∈ m, k < c.1) :
    sourceAt m k = Source.empty := by
  induction m with
  | nil => rfl
  | cons c rest ih =>
    have hc := h c (by simp)
    simp only [sourceAt]
    rw [if_neg (by omega)]
    exact ih fun d hd => h d (by simp [hd])

theorem sourcesWf_cons {j : Nat} {y : Source} {rest : List (Nat × Source)} :
    SourcesWf ((j, y) :: rest) ↔
      (∀ c ∈ rest, j < c.1) ∧ y ≠ Source.empty ∧ y.wf ∧ SourcesWf rest := by
  simp only [SourcesWf, List.map_cons, List.pairwise_cons, List.mem_map, List.mem_cons]
  constructor
  · rintro ⟨⟨h1, h2⟩, h3⟩
    exact ⟨fun c hc => h1 _ ⟨c, hc, rfl⟩, (h3 _ (.inl rfl)).1, (h3 _ (.inl rfl)).2, h2, fun c hc => h3 c (.inr hc)⟩
  · rintro ⟨h1, h2, h3, h4, h5⟩
    refine ⟨⟨?_, h4⟩, ?_⟩
    · rintro _ ⟨c, hc, rfl⟩
      exact h1 c hc
    · rintro c (rfl | hc)
      · exact ⟨h2, h3⟩
      · exact h5 c hc

/-- Whatever is listed after a put was listed before, or is what was put. -/
theorem mem_put {m : List (Nat × Source)} {k : Nat} {x : Source} {c : Nat × Source}
    (h : c ∈ putSource m k x) : c ∈ m ∨ c = (k, x) := by
  induction m with
  | nil =>
    unfold putSource at h
    split at h <;> simp_all
  | cons d rest ih =>
    obtain ⟨j, y⟩ := d
    unfold putSource at h
    split at h
    · split at h <;> simp_all
      tauto
    · split at h
      · split at h <;> simp_all
        tauto
      · simp only [List.mem_cons] at h ⊢
        rcases h with h | h
        · exact .inl (.inl h)
        · exact (ih h).imp_left .inr

theorem put_keeps_wf {x : Source} (hx : x.wf) :
    ∀ {m : List (Nat × Source)} {k : Nat}, SourcesWf m → SourcesWf (putSource m k x)
  | [], k, _ => by
    unfold putSource
    split
    · simp [SourcesWf]
    · rename_i h
      exact ⟨by simp, by simpa using ⟨h, hx⟩⟩
  | (j, y) :: rest, k, h => by
    obtain ⟨h1, h2, h3, h4⟩ := sourcesWf_cons.mp h
    unfold putSource
    split
    · split
      · exact h
      · rename_i hk hne
        refine sourcesWf_cons.mpr ⟨?_, hne, hx, h⟩
        rintro c hc
        rcases List.mem_cons.mp hc with rfl | hc
        · exact hk
        · exact Nat.lt_trans hk (h1 c hc)
    · split
      · split
        · exact h4
        · rename_i heq hne
          exact sourcesWf_cons.mpr ⟨fun c hc => heq ▸ h1 c hc, hne, hx, h4⟩
      · rename_i hlt hne
        refine sourcesWf_cons.mpr ⟨fun c hc => ?_, h2, h3, put_keeps_wf hx h4⟩
        rcases mem_put hc with hc | rfl
        · exact h1 c hc
        · show j < k
          omega

theorem sourceAt_put_same_wf {x : Source} :
    ∀ {m : List (Nat × Source)} {k : Nat}, SourcesWf m → sourceAt (putSource m k x) k = x := by
  intro m k h
  by_cases hx : x = Source.empty
  · subst hx
    induction m with
    | nil => simp [putSource, sourceAt]
    | cons c rest ih =>
      obtain ⟨j, y⟩ := c
      obtain ⟨h1, h2, h3, h4⟩ := sourcesWf_cons.mp h
      unfold putSource
      split
      · rename_i hk
        simp only [if_true]
        refine sourceAt_below fun c hc => ?_
        rcases List.mem_cons.mp hc with rfl | hc
        · exact hk
        · exact Nat.lt_trans hk (h1 c hc)
      · split
        · rename_i heq
          simp only [if_true]
          exact sourceAt_below fun c hc => heq ▸ h1 c hc
        · rename_i hne
          simp only [sourceAt]
          rw [if_neg (Ne.symm hne), ih h4]
  · exact sourceAt_put_same hx m k

/-- The source a table reads at a name is in canonical form when the table is. -/
theorem sourceAt_wf : ∀ {m : List (Nat × Source)}, SourcesWf m → ∀ k, (sourceAt m k).wf
  | [], _, _ => by simp [sourceAt, Source.empty, Source.wf]
  | (j, y) :: rest, h, k => by
    obtain ⟨_, _, h3, h4⟩ := sourcesWf_cons.mp h
    unfold sourceAt
    split
    · exact h3
    · exact sourceAt_wf h4 k

theorem ask_wf {x : Source} (h : x.wf) : x.ask.2.wf := by
  rcases x with ⟨_ | ⟨a, rest⟩, p, r⟩
  · simp [Source.ask, Source.wf]
  · rcases rest with _ | ⟨a', rest⟩
    · cases a <;> simp [Source.ask, Source.wf]
    · cases a <;> simpa [Source.ask, Source.wf] using h

/-- Every request takes the front answer away, if there is one, and is counted. -/
theorem ask_answers (x : Source) : x.ask.2.answers = x.answers.drop 1 := by
  rcases x with ⟨_ | ⟨_ | _, _⟩, p, r⟩ <;> rfl

theorem ask_requests (x : Source) : x.ask.2.requests = x.requests + 1 := by
  rcases x with ⟨_ | ⟨_ | _, _⟩, p, r⟩ <;> rfl

theorem ask_exhausted {x : Source} (h : deliverable x.answers = []) :
    x.ask = (.exhausted, ⟨x.answers.drop 1, x.position, x.requests + 1⟩) := by
  rcases x with ⟨_ | ⟨_ | _, _⟩, p, r⟩
  · rfl
  · simp [deliverable] at h
  · rfl

theorem ask_byte {x : Source} {b : Byte} {bs : List Byte} (h : deliverable x.answers = b :: bs) :
    x.ask = (.byte b, ⟨x.answers.drop 1, x.position + 1, x.requests + 1⟩) ∧
      deliverable (x.answers.drop 1) = bs := by
  rcases x with ⟨_ | ⟨_ | _, _⟩, p, r⟩
  · simp [deliverable] at h
  · simp only [deliverable, List.cons.injEq] at h
    exact ⟨by rw [← h.1]; rfl, h.2⟩
  · simp [deliverable] at h

theorem deliverable_map_byte (bs : List Byte) (rest : List Answer) :
    deliverable (bs.map .byte ++ rest) = bs ++ deliverable rest := by
  induction bs with
  | nil => rfl
  | cons b bs ih => simp [deliverable, ih]

theorem deliverable_take : ∀ (l : List Answer) (n : Nat), deliverable (l.take n) = (deliverable l).take n
  | [], n => by simp [deliverable]
  | _ :: _, 0 => by simp [deliverable]
  | .byte b :: rest, n + 1 => by simp [deliverable, deliverable_take rest n]
  | .exhausted :: rest, n + 1 => by simp [deliverable]

/-- What one `ReadByte()` of a source does to the state. -/
theorem readByte_eq (k : Nat) (s : State) :
    readByte k s = ((sourceAt s.sources k).ask.1,
      { s with sources := putSource s.sources k (sourceAt s.sources k).ask.2 }) := rfl

/-- Two tables in canonical form that read alike are equal. -/
theorem sources_ext : ∀ {m n : List (Nat × Source)}, SourcesWf m → SourcesWf n →
    (∀ k, sourceAt m k = sourceAt n k) → m = n
  | [], [], _, _, _ => rfl
  | [], (j, y) :: rest, _, hn, h => by
    obtain ⟨_, h2, _, _⟩ := sourcesWf_cons.mp hn
    have := h j
    simp [sourceAt] at this
    exact absurd this.symm h2
  | (j, y) :: rest, [], hm, _, h => by
    obtain ⟨_, h2, _, _⟩ := sourcesWf_cons.mp hm
    have := h j
    simp [sourceAt] at this
    exact absurd this h2
  | (i, x) :: ms, (j, y) :: ns, hm, hn, h => by
    obtain ⟨hm1, hm2, _, hm4⟩ := sourcesWf_cons.mp hm
    obtain ⟨hn1, hn2, _, hn4⟩ := sourcesWf_cons.mp hn
    have hij : i = j := by
      rcases Nat.lt_trichotomy i j with hlt | heq | hgt
      · have := h i
        rw [sourceAt, if_pos rfl, sourceAt_below] at this
        · exact absurd this hm2
        · intro c hc
          rcases List.mem_cons.mp hc with rfl | hc
          · exact hlt
          · exact Nat.lt_trans hlt (hn1 c hc)
      · exact heq
      · have := (h j).symm
        rw [sourceAt, if_pos rfl, sourceAt_below] at this
        · exact absurd this hn2
        · intro c hc
          rcases List.mem_cons.mp hc with rfl | hc
          · exact hgt
          · exact Nat.lt_trans hgt (hm1 c hc)
    subst hij
    have hxy : x = y := by simpa [sourceAt] using h i
    subst hxy
    refine congrArg _ (sources_ext hm4 hn4 fun k => ?_)
    by_cases hk : i = k
    · subst hk
      rw [sourceAt_below hm1, sourceAt_below hn1]
    · simpa [sourceAt, hk] using h k

end Sys2Proof.Machine
end

