-- ==== Sys2Proof/Laws/Decoder.lean ====
section
/-!
SUPPORT. What the decoder does: the fields of a byte as arithmetic, the loop over a buffer and over a source as one function
of the bytes available, that function by the classes of R67, and what each decode operation answers.
-/

namespace Sys2Proof.Machine

/-! ### Fields of a byte -/

theorem contBit_eq (b : Byte) : contBit b = decide (Continues b) := by
  simp only [contBit, BitVec.getLsbD, Continues, Nat.testBit_eq_decide_div_mod_eq]
  have := b.isLt
  rw [decide_eq_decide]
  omega

@[simp] theorem contBit_false (b : Byte) : contBit b = false ↔ ¬ Continues b := by
  simp [contBit_eq]

@[simp] theorem contBit_true (b : Byte) : contBit b = true ↔ Continues b := by
  simp [contBit_eq]

theorem getLsbD_seven (b : Byte) : b.getLsbD 7 = contBit b := rfl

theorem payloadAt_toNat (b : Byte) (k : Nat) : (payloadAt b k).toNat = b.toNat % 128 * 2 ^ k % 65536 := by
  have : b.toNat % 128 % 65536 = b.toNat % 128 := Nat.mod_eq_of_lt (by omega)
  simp [payloadAt, payload, BitVec.toNat_shiftLeft, Nat.shiftLeft_eq, this]

/-- RESULT after two bytes (R64): the groups do not overlap, so OR is sum. -/
theorem two_groups (b0 b1 : Byte) :
    (payloadAt b0 0 ||| payloadAt b1 7).toNat = b0.toNat % 128 + 128 * (b1.toNat % 128) := by
  rw [BitVec.toNat_or, payloadAt_toNat, payloadAt_toNat, Nat.or_comm]
  have h := Nat.two_pow_add_eq_or_of_lt (i := 7) (b := b0.toNat % 128) (by omega) (b1.toNat % 128)
  rw [show b1.toNat % 128 * 2 ^ 7 % 65536 = 2 ^ 7 * (b1.toNat % 128) by omega,
    show b0.toNat % 128 * 2 ^ 0 % 65536 = b0.toNat % 128 by omega, ← h, Nat.add_comm]

/-- RESULT after three bytes (R64); bits 6:2 of the third are cut off (R105). -/
theorem three_groups (b0 b1 b2 : Byte) :
    (payloadAt b0 0 ||| payloadAt b1 7 ||| payloadAt b2 14).toNat =
      b0.toNat % 128 + 128 * (b1.toNat % 128) + 16384 * (b2.toNat % 4) := by
  rw [BitVec.toNat_or, two_groups, payloadAt_toNat, Nat.or_comm]
  have h := Nat.two_pow_add_eq_or_of_lt (i := 14) (b := b0.toNat % 128 + 128 * (b1.toNat % 128)) (by omega)
    (b2.toNat % 4)
  rw [show b2.toNat % 128 * 2 ^ 14 % 65536 = 2 ^ 14 * (b2.toNat % 4) by omega, ← h, Nat.add_comm]

/-! ### The byte step -/

theorem byteStep_of_ne_busy {r : DecoderRegs} (h : r.phase ≠ .busy) (input : Answer) : byteStep input r = r := by
  unfold byteStep
  split
  · rfl
  · rfl
  · rename_i hb
    exact absurd hb h

theorem byteStep_exhausted {r : DecoderRegs} (h : r.phase = .busy) :
    byteStep .exhausted r = { r with phase := .failed .unexpectedEndOfInput } := by
  simp [byteStep, h]

/-- The byte step on a byte, in every field. -/
theorem byteStep_byte {r : DecoderRegs} (h : r.phase = .busy) (b : Byte) :
    byteStep (.byte b) r =
      { count := r.count + 1
        result := r.result ||| payloadAt b r.shift.toNat
        phase := if ¬ Continues b then .done
          else if 16 ≤ r.shift.toNat + 7 then .failed .encodingOutOfBounds else .busy
        shift := if Continues b ∧ r.shift.toNat + 7 < 16 then r.shift + 7#5 else r.shift } := by
  unfold byteStep
  rw [h]
  simp only [contBit_false, Config.shiftLimit, Config.groupWidth]
  by_cases hc : Continues b
  · by_cases hs : 16 ≤ r.shift.toNat + 7
    · rw [if_neg (not_not_intro hc), if_pos hs, if_neg (not_not_intro hc), if_pos hs, if_neg (by omega)]
    · rw [if_neg (not_not_intro hc), if_neg hs, if_neg (not_not_intro hc), if_neg hs,
        if_pos ⟨hc, by omega⟩]
  · rw [if_pos hc, if_pos hc, if_neg (by tauto)]

/-! ### The loop -/

/-- The loop on registers alone, over the bytes available. -/
def regsAfter : Nat → List Byte → DecoderRegs → DecoderRegs
  | 0, _, r => r
  | n + 1, bs, r =>
    if r.phase = .busy then
      match bs with
      | [] => regsAfter n [] (byteStep .exhausted r)
      | b :: rest => regsAfter n rest (byteStep (.byte b) r)
    else r

/-- The requests a source sees while the loop runs. -/
def requestsMade : Nat → List Byte → DecoderRegs → Nat
  | 0, _, _ => 0
  | n + 1, bs, r =>
    if r.phase = .busy then
      match bs with
      | [] => requestsMade n [] (byteStep .exhausted r) + 1
      | b :: rest => requestsMade n rest (byteStep (.byte b) r) + 1
    else 0

/-- A source after `n` requests of which `p` were answered with a byte. -/
def Source.after (x : Source) (n p : Nat) : Source := ⟨x.answers.drop n, x.position + p, x.requests + n⟩

theorem decodeRun_of_ne_busy {s : State} (h : s.dec.phase ≠ .busy) (f : Feed) : ∀ n, decodeRun f n s = s
  | 0 => rfl
  | n + 1 => by rw [decodeRun, if_neg h]

/-- Turns can be split: `m + n` turns are `m` turns, then `n`. -/
theorem decodeRun_add (f : Feed) : ∀ (m n : Nat) (s : State),
    decodeRun f (m + n) s = decodeRun f n (decodeRun f m s)
  | 0, n, s => by rw [Nat.zero_add]; rfl
  | m + 1, n, s => by
    rw [show m + 1 + n = (m + n) + 1 by omega, decodeRun, decodeRun]
    split
    · exact decodeRun_add f m n _
    · rename_i h
      exact (decodeRun_of_ne_busy h f n).symm

theorem regsAfter_of_ne_busy {r : DecoderRegs} (h : r.phase ≠ .busy) (bs : List Byte) :
    ∀ n, regsAfter n bs r = r
  | 0 => rfl
  | n + 1 => by
    unfold regsAfter
    rw [if_neg h]

theorem bufferAnswer_drop {buf : List Byte} {n : Nat} {b : Byte} {rest : List Byte} (h : buf.drop n = b :: rest) :
    bufferAnswer buf n = .byte b := by
  have : buf[n]? = some b := by
    have := congrArg (·[0]?) h
    simpa using this
  simp [bufferAnswer, memRead, this]

theorem bufferAnswer_end {buf : List Byte} {n : Nat} (h : buf.drop n = []) : bufferAnswer buf n = .exhausted := by
  have : buf[n]? = none := by
    simpa using h
  simp [bufferAnswer, memRead, this]

/-- The loop over a buffer changes the decoder's registers alone, and these as `regsAfter` says on the bytes from COUNT on,
as long as COUNT does not run over. -/
theorem decodeRun_buffer (buf : List Byte) : ∀ (n : Nat) (s : State), s.dec.count.toNat + n ≤ 3 →
    decodeRun (.buffer buf) n s = { s with dec := regsAfter n (buf.drop s.dec.count.toNat) s.dec }
  | 0, _, _ => rfl
  | n + 1, s, hn => by
    unfold decodeRun regsAfter
    split
    · rename_i hb
      cases hd : buf.drop s.dec.count.toNat with
      | nil =>
        have hstep : feedStep (.buffer buf) s = { s with dec := byteStep .exhausted s.dec } := by
          simp [feedStep, nextInput, bufferAnswer_end hd]
        have hp : (byteStep .exhausted s.dec).phase ≠ .busy := by simp [byteStep_exhausted hb]
        rw [hstep]
        simp only
        rw [decodeRun_of_ne_busy hp, regsAfter_of_ne_busy hp]
      | cons b rest =>
        have hstep : feedStep (.buffer buf) s = { s with dec := byteStep (.byte b) s.dec } := by
          simp [feedStep, nextInput, bufferAnswer_drop hd]
        have hc : (byteStep (.byte b) s.dec).count.toNat = s.dec.count.toNat + 1 := by
          rw [byteStep_byte hb]
          simp only [BitVec.toNat_add]
          show (s.dec.count.toNat + 1) % 4 = _
          omega
        rw [hstep, decodeRun_buffer buf n _ (by simp only [hc]; omega)]
        simp only [hc]
        rw [show buf.drop (s.dec.count.toNat + 1) = rest by rw [← List.drop_drop, hd]; rfl]
    · rfl

theorem requestsMade_of_ne_busy {r : DecoderRegs} (h : r.phase ≠ .busy) (bs : List Byte) :
    ∀ n, requestsMade n bs r = 0
  | 0 => rfl
  | n + 1 => by
    unfold requestsMade
    rw [if_neg h]

theorem after_after (x : Source) (m n p q : Nat) : (x.after m p).after n q = x.after (m + n) (p + q) := by
  simp [Source.after, List.drop_drop, Nat.add_assoc]

theorem after_ne_empty (x : Source) {n : Nat} (h : 0 < n) (p : Nat) : x.after n p ≠ Source.empty := by
  simp only [Source.after, Source.empty, ne_eq, Source.mk.injEq, not_and]
  omega

theorem byteStep_count {r : DecoderRegs} (h : r.phase = .busy) (b : Byte) (hc : r.count.toNat < 3) :
    (byteStep (.byte b) r).count.toNat = r.count.toNat + 1 := by
  rw [byteStep_byte h]
  simp only [BitVec.toNat_add]
  show (r.count.toNat + 1) % 4 = _
  omega

theorem regsAfter_count_le : ∀ (n : Nat) (bs : List Byte) (r : DecoderRegs), r.count.toNat + n ≤ 3 →
    r.count.toNat ≤ (regsAfter n bs r).count.toNat
  | 0, _, _, _ => Nat.le_refl _
  | n + 1, bs, r, h => by
    unfold regsAfter
    split
    · rename_i hb
      cases bs with
      | nil =>
        rw [byteStep_exhausted hb]
        exact regsAfter_count_le n [] { r with phase := .failed .unexpectedEndOfInput } (by simp only; omega)
      | cons b rest =>
        have hc := byteStep_count hb b (by omega)
        have := regsAfter_count_le n rest (byteStep (.byte b) r) (by omega)
        simp only
        omega
    · exact Nat.le_refl _

/-- Cutting the loop short cuts the requests short, and nothing else: a turn is a request. -/
theorem requestsMade_cut : ∀ {m n : Nat} (_ : m ≤ n) (bs : List Byte) (r : DecoderRegs),
    requestsMade m bs r = min m (requestsMade n bs r)
  | 0, n, _, bs, r => by simp [requestsMade]
  | m + 1, n + 1, h, bs, r => by
    unfold requestsMade
    split
    · cases bs <;> simp only [requestsMade_cut (Nat.le_of_succ_le_succ h)] <;> omega
    · simp

/-- COUNT grows by the bytes among the answers to the requests made. -/
theorem regsAfter_count : ∀ (n : Nat) (bs : List Byte) (r : DecoderRegs), r.count.toNat + n ≤ 3 →
    (regsAfter n bs r).count.toNat = r.count.toNat + (bs.take (requestsMade n bs r)).length
  | 0, bs, r, _ => by simp [regsAfter, requestsMade]
  | n + 1, bs, r, h => by
    unfold regsAfter requestsMade
    split
    · rename_i hb
      cases bs with
      | nil =>
        rw [regsAfter_count n [] _ (by rw [byteStep_exhausted hb]; simp only; omega), byteStep_exhausted hb]
        simp
      | cons b rest =>
        have hc := byteStep_count hb b (by omega)
        simp only [regsAfter_count n rest _ (show (byteStep (.byte b) r).count.toNat + n ≤ 3 by omega), hc,
          List.take_succ_cons, List.length_cons]
        omega
    · simp

/-- One turn of the loop over a source that has a byte to give. -/
theorem feedStep_source_byte {k : Nat} {s : State} {b : Byte} {rest : List Byte}
    (h : deliverable (sourceAt s.sources k).answers = b :: rest) :
    feedStep (.source k) s = { s with
      dec := byteStep (.byte b) s.dec
      sources := putSource s.sources k ((sourceAt s.sources k).after 1 1) } := by
  simp [feedStep, nextInput, readByte_eq, (ask_byte h).1, Source.after]

/-- One turn of the loop over a source that answers `Exhausted`. -/
theorem feedStep_source_end {k : Nat} {s : State} (h : deliverable (sourceAt s.sources k).answers = []) :
    feedStep (.source k) s = { s with
      dec := byteStep .exhausted s.dec
      sources := putSource s.sources k ((sourceAt s.sources k).after 1 0) } := by
  simp [feedStep, nextInput, readByte_eq, ask_exhausted h, Source.after]

/-- The loop over a source: the registers as `regsAfter` says on the bytes the source will deliver; of the sources, the one
bound has seen the requests made and delivered the bytes COUNT counts, and no other changes. -/
theorem decodeRun_source (k : Nat) : ∀ (n : Nat) (s : State), s.dec.phase = .busy → 0 < n →
    s.dec.count.toNat + n ≤ 3 →
    decodeRun (.source k) n s =
      let front := deliverable (sourceAt s.sources k).answers
      { s with
        dec := regsAfter n front s.dec
        sources := putSource s.sources k ((sourceAt s.sources k).after (requestsMade n front s.dec)
          ((regsAfter n front s.dec).count.toNat - s.dec.count.toNat)) }
  | 0, _, _, h, _ => absurd h (by omega)
  | n + 1, s, hb, _, hn => by
    unfold decodeRun regsAfter requestsMade
    simp only [hb, if_true]
    cases hd : deliverable (sourceAt s.sources k).answers with
    | nil =>
      have hp : (byteStep .exhausted s.dec).phase ≠ .busy := by simp [byteStep_exhausted hb]
      have hc : (byteStep .exhausted s.dec).count = s.dec.count := by rw [byteStep_exhausted hb]
      rw [feedStep_source_end hd, decodeRun_of_ne_busy hp]
      simp only [regsAfter_of_ne_busy hp, requestsMade_of_ne_busy hp, hc, Nat.sub_self, Nat.zero_add]
    | cons b rest =>
      have hc := byteStep_count hb b (by omega)
      rw [feedStep_source_byte hd]
      by_cases hp : (byteStep (.byte b) s.dec).phase = .busy ∧ 0 < n
      · have hx := after_ne_empty (sourceAt s.sources k) Nat.one_pos 1
        have hle := regsAfter_count_le n rest (byteStep (.byte b) s.dec) (by omega)
        rw [decodeRun_source k n _ hp.1 hp.2 (by simp only; omega)]
        simp only [sourceAt_put_same hx, put_put hx, after_after]
        rw [show deliverable ((sourceAt s.sources k).after 1 1).answers = rest from (ask_byte hd).2]
        rw [hc, show 1 + ((regsAfter n rest (byteStep (.byte b) s.dec)).count.toNat - (s.dec.count.toNat + 1)) =
          (regsAfter n rest (byteStep (.byte b) s.dec)).count.toNat - s.dec.count.toNat by omega, Nat.add_comm 1]
      · have hrun : ∀ t : State, t.dec = byteStep (.byte b) s.dec → decodeRun (.source k) n t = t := by
          intro t ht
          by_cases hz : n = 0
          · subst hz; rfl
          · exact decodeRun_of_ne_busy (by rw [ht]; intro h; exact hp ⟨h, by omega⟩) _ n
        have hregs : regsAfter n rest (byteStep (.byte b) s.dec) = byteStep (.byte b) s.dec := by
          by_cases hz : n = 0
          · subst hz; rfl
          · exact regsAfter_of_ne_busy (fun h => hp ⟨h, by omega⟩) _ n
        have hreq : requestsMade n rest (byteStep (.byte b) s.dec) = 0 := by
          by_cases hz : n = 0
          · subst hz; rfl
          · exact requestsMade_of_ne_busy (fun h => hp ⟨h, by omega⟩) _ n
        rw [hrun _ rfl]
        simp only [hregs, hreq, hc, Nat.zero_add, Nat.add_sub_cancel_left]

/-! ### The loop by the classes of R67 -/

theorem start_byte_continues {b : Byte} (h : Continues b) :
    byteStep (.byte b) DecoderRegs.start = ⟨payloadAt b 0, 7#5, 1#2, .busy⟩ := by
  rw [byteStep_byte rfl]
  simp [h, DecoderRegs.start]

theorem start_byte_ends {b : Byte} (h : ¬ Continues b) :
    byteStep (.byte b) DecoderRegs.start = ⟨payloadAt b 0, 0#5, 1#2, .done⟩ := by
  rw [byteStep_byte rfl]
  simp [h, DecoderRegs.start]

theorem start_exhausted :
    byteStep .exhausted DecoderRegs.start = ⟨0#16, 0#5, 0#2, .failed .unexpectedEndOfInput⟩ := rfl

theorem busy_exhausted {v : Value} {sh : BitVec 5} {c : BitVec 2} :
    byteStep .exhausted ⟨v, sh, c, .busy⟩ = ⟨v, sh, c, .failed .unexpectedEndOfInput⟩ := rfl

theorem second_byte_continues {v : Value} {b : Byte} (h : Continues b) :
    byteStep (.byte b) ⟨v, 7#5, 1#2, .busy⟩ = ⟨v ||| payloadAt b 7, 14#5, 2#2, .busy⟩ := by
  simp [byteStep_byte (r := ⟨v, 7#5, 1#2, .busy⟩) rfl, h]

theorem second_byte_ends {v : Value} {b : Byte} (h : ¬ Continues b) :
    byteStep (.byte b) ⟨v, 7#5, 1#2, .busy⟩ = ⟨v ||| payloadAt b 7, 7#5, 2#2, .done⟩ := by
  simp [byteStep_byte (r := ⟨v, 7#5, 1#2, .busy⟩) rfl, h]

theorem third_byte_continues {v : Value} {b : Byte} (h : Continues b) :
    byteStep (.byte b) ⟨v, 14#5, 2#2, .busy⟩ =
      ⟨v ||| payloadAt b 14, 14#5, 3#2, .failed .encodingOutOfBounds⟩ := by
  simp [byteStep_byte (r := ⟨v, 14#5, 2#2, .busy⟩) rfl, h]

theorem third_byte_ends {v : Value} {b : Byte} (h : ¬ Continues b) :
    byteStep (.byte b) ⟨v, 14#5, 2#2, .busy⟩ = ⟨v ||| payloadAt b 14, 14#5, 3#2, .done⟩ := by
  simp [byteStep_byte (r := ⟨v, 14#5, 2#2, .busy⟩) rfl, h]

/-- The registers at the end of a decode transaction whose feed has these bytes. -/
def endRegs (bs : List Byte) : DecoderRegs := regsAfter 3 bs DecoderRegs.start

/-- What the loop comes to on an input of each class (R67), in one statement: phase, COUNT, RESULT and the requests made. -/
theorem endRegs_of_class (bs : List Byte) :
    match classify bs with
    | .accepted length =>
      (endRegs bs).phase = .done ∧ (endRegs bs).count = BitVec.ofNat 2 length ∧
        (endRegs bs).result = BitVec.ofNat 16 (wireValue (bs.take length)) ∧
        requestsMade 3 bs DecoderRegs.start = length ∧ 1 ≤ length ∧ length ≤ 3 ∧ length ≤ bs.length
    | .outOfBounds =>
      (endRegs bs).phase = .failed .encodingOutOfBounds ∧ (endRegs bs).count = 3#2 ∧
        requestsMade 3 bs DecoderRegs.start = 3 ∧ 3 ≤ bs.length
    | .incomplete =>
      (endRegs bs).phase = .failed .unexpectedEndOfInput ∧ (endRegs bs).count = BitVec.ofNat 2 bs.length ∧
        requestsMade 3 bs DecoderRegs.start = bs.length + 1 ∧ bs.length ≤ 2 := by
  have hb : DecoderRegs.start.phase = .busy := rfl
  rcases bs with _ | ⟨b0, t0⟩
  · simp [classify, endRegs, regsAfter, requestsMade, hb, start_exhausted]
  have r1 : payloadAt b0 0 = BitVec.ofNat 16 (b0.toNat % 128) :=
    BitVec.eq_of_toNat_eq (by rw [payloadAt_toNat]; simp)
  by_cases h0 : Continues b0
  · rcases t0 with _ | ⟨b1, t1⟩
    · simp [classify, h0, endRegs, regsAfter, requestsMade, hb, start_byte_continues h0, busy_exhausted]
    have r2 : payloadAt b0 0 ||| payloadAt b1 7 = BitVec.ofNat 16 (b0.toNat % 128 + 128 * (b1.toNat % 128)) :=
      BitVec.eq_of_toNat_eq (by rw [two_groups, BitVec.toNat_ofNat]; omega)
    by_cases h1 : Continues b1
    · rcases t1 with _ | ⟨b2, t2⟩
      · simp [classify, h0, h1, endRegs, regsAfter, requestsMade, hb, start_byte_continues h0,
          second_byte_continues h1, busy_exhausted]
      have r3 : payloadAt b0 0 ||| payloadAt b1 7 ||| payloadAt b2 14 =
          BitVec.ofNat 16 (b0.toNat % 128 + 128 * (b1.toNat % 128) + 16384 * (b2.toNat % 4)) :=
        BitVec.eq_of_toNat_eq (by rw [three_groups, BitVec.toNat_ofNat]; omega)
      by_cases h2 : Continues b2
      · simp [classify, h0, h1, h2, endRegs, regsAfter, requestsMade, hb, start_byte_continues h0,
          second_byte_continues h1, third_byte_continues h2]
      · simp [classify, h0, h1, h2, endRegs, regsAfter, requestsMade, hb, start_byte_continues h0,
          second_byte_continues h1, third_byte_ends h2, r3, wireValue]
    · have hcl : classify (b0 :: b1 :: t1) = .accepted 2 := by
        cases t1 <;> simp [classify, h0, h1]
      simp [hcl, endRegs, regsAfter, requestsMade, hb, start_byte_continues h0, second_byte_ends h1, r2, wireValue]
  · have hcl : classify (b0 :: t0) = .accepted 1 := by
      rcases t0 with _ | ⟨b1, _ | ⟨b2, t2⟩⟩ <;> simp [classify, h0]
    simp [hcl, endRegs, regsAfter, requestsMade, hb, start_byte_ends h0, r1, wireValue]

/-- A decode transaction makes one to three requests. -/
theorem requestsMade_bounds (bs : List Byte) :
    1 ≤ requestsMade 3 bs DecoderRegs.start ∧ requestsMade 3 bs DecoderRegs.start ≤ 3 := by
  have h := endRegs_of_class bs
  split at h <;> omega

/-- The end of a decode transaction over a buffer: the registers by the buffer's bytes, all else as at the start. -/
theorem decodeEnd_buffer (buf : List Byte) (s : State) :
    decodeEnd (.buffer buf) s = { beginDecode s with dec := endRegs buf } :=
  decodeRun_buffer buf 3 (beginDecode s) (Nat.le_refl 3)

/-- The end of a decode transaction over a source: the registers by the bytes it delivers, the source advanced, all else as at
the start. -/
theorem decodeEnd_source (k : Nat) (s : State) :
    decodeEnd (.source k) s =
      let front := deliverable (sourceAt s.sources k).answers
      { beginDecode s with
        dec := endRegs front
        sources := putSource s.sources k ((sourceAt s.sources k).after
          (requestsMade 3 front DecoderRegs.start) (endRegs front).count.toNat) } := by
  exact decodeRun_source k 3 (beginDecode s) rfl (by decide) (Nat.le_refl 3)

/-- Over either feed the registers end as the bytes available say. -/
theorem decodeEnd_dec (f : Feed) (s : State) : (decodeEnd f s).dec = endRegs (available s f) := by
  cases f with
  | buffer buf => rw [decodeEnd_buffer]; rfl
  | source k => rw [decodeEnd_source]; rfl

/-- The loop is over after three turns. -/
theorem endRegs_ne_busy (bs : List Byte) : (endRegs bs).phase ≠ .busy := by
  have h := endRegs_of_class bs
  split at h <;> rw [h.1] <;> simp

theorem endRegs_ne_trailing (bs : List Byte) : (endRegs bs).phase ≠ .failed .trailingData := by
  have h := endRegs_of_class bs
  split at h <;> rw [h.1] <;> simp

/-! ### What the decode operations answer -/

/-- The state DECODE_READER reaches: the bound source advanced, and the outputs. -/
theorem exec_decodeReader_next (k : Nat) (s : State) :
    ∃ t, exec (.decodeReader k) s = .next t ∧ t.inputs = s.inputs ∧ t.enc.out.length ≤ 3 ∧
      (let front := deliverable (sourceAt s.sources k).answers
      t.sources = putSource s.sources k ((sourceAt s.sources k).after
        (requestsMade 3 front DecoderRegs.start) (endRegs front).count.toNat) ∧
      t.outputs = some (match classify front with
        | .accepted length => .valueOnly (wireValue (front.take length))
        | .outOfBounds => .failure 2#2
        | .incomplete => .failure 1#2)) := by
  have hrun := decodeEnd_source k s
  have hcls := endRegs_of_class (deliverable (sourceAt s.sources k).answers)
  refine ⟨_, rfl, ?_⟩
  rw [show decodeRun (.source k) Config.maxBytes (beginDecode s) = decodeEnd (.source k) s from rfl, hrun]
  split at hcls <;> rename_i hc <;> simp only [concludeDecode, hcls.1, hc]
  · exact ⟨rfl, finish_out_length _ _, rfl, by simp [decodeReaderDone, hcls.2.2.1, statusOk]⟩
  · exact ⟨rfl, raiseError_out_length _ _, rfl, rfl⟩
  · exact ⟨rfl, raiseError_out_length _ _, rfl, rfl⟩

/-- The state DECODE reaches: the outputs, and the sources left. -/
theorem exec_decode_next (buf : List Byte) (s : State) :
    ∃ t, exec (.decode buf) s = .next t ∧ t.inputs = s.inputs ∧ t.enc.out.length ≤ 3 ∧ t.sources = s.sources ∧
      t.outputs = some (match classify buf with
        | .accepted length => .decoded (wireValue (buf.take length)) length
        | .outOfBounds => .failure 2#2
        | .incomplete => .failure 1#2) := by
  have hrun := decodeEnd_buffer buf s
  have hcls := endRegs_of_class buf
  refine ⟨_, rfl, ?_⟩
  rw [show decodeRun (.buffer buf) Config.maxBytes (beginDecode s) = decodeEnd (.buffer buf) s from rfl, hrun]
  split at hcls <;> simp only [concludeDecode, hcls.1]
  · exact ⟨rfl, finish_out_length _ _, rfl, by simp [decodeDone, hcls.2.1, hcls.2.2.1, statusOk]⟩
  · exact ⟨rfl, raiseError_out_length _ _, rfl, rfl⟩
  · exact ⟨rfl, raiseError_out_length _ _, rfl, rfl⟩

/-- The state DECODE_STRICT reaches: the outputs, and the sources left. -/
theorem exec_decodeStrict_next (buf : List Byte) (s : State) :
    ∃ t, exec (.decodeStrict buf) s = .next t ∧ t.inputs = s.inputs ∧ t.enc.out.length ≤ 3 ∧
      t.sources = s.sources ∧
      t.outputs = some (match classify buf with
        | .accepted length => if length < buf.length then .failure 3#2 else .valueOnly (wireValue (buf.take length))
        | .outOfBounds => .failure 2#2
        | .incomplete => .failure 1#2) := by
  have hrun := decodeEnd_buffer buf s
  have hcls := endRegs_of_class buf
  refine ⟨_, rfl, ?_⟩
  rw [show decodeRun (.buffer buf) Config.maxBytes (beginDecode s) = decodeEnd (.buffer buf) s from rfl, hrun]
  split at hcls <;> simp only [concludeDecode, hcls.1]
  · rename_i length _
    obtain ⟨-, hcount, hresult, -, -, hle, -⟩ := hcls
    have hn : (endRegs buf).count.toNat = length := by
      rw [hcount, BitVec.toNat_ofNat]
      exact Nat.mod_eq_of_lt (by omega)
    simp only [decodeStrictDone, hn]
    split
    · exact ⟨rfl, raiseError_out_length _ _, rfl, rfl⟩
    · exact ⟨rfl, finish_out_length _ _, rfl, by simp [hresult, statusOk]⟩
  · exact ⟨rfl, raiseError_out_length _ _, rfl, rfl⟩
  · exact ⟨rfl, raiseError_out_length _ _, rfl, rfl⟩

end Sys2Proof.Machine
end

