-- ==== Sys2Proof/Laws/Encoder.lean ====
section
/-!
SUPPORT. What the encoder does: its loop unrolled to the closed form of R81, and what ENCODE answers.
-/

namespace Sys2Proof.Machine

theorem groupByte_eq (v : Value) : groupByte v = BitVec.ofNat 8 (128 + v.toNat % 128) := by
  apply BitVec.eq_of_toNat_eq
  have h := Nat.two_pow_add_eq_or_of_lt (i := 7) (b := v.toNat % 128) (by omega) 1
  simp only [groupByte, BitVec.toNat_or, BitVec.toNat_setWidth, BitVec.extractLsb'_toNat, BitVec.toNat_ofNat,
    Nat.shiftRight_zero]
  rw [show (2 : Nat) ^ 7 = 128 from rfl] at *
  rw [Nat.mod_eq_of_lt (show v.toNat % 128 < 2 ^ 8 by omega), ← h]
  omega

theorem lastByte_eq (v : Value) : v.setWidth 8 = BitVec.ofNat 8 v.toNat := by
  apply BitVec.eq_of_toNat_eq
  simp

theorem shift7_toNat (v : Value) : (v >>> 7).toNat = v.toNat / 128 := by
  simp [Nat.shiftRight_eq_div_pow]

theorem continue_iff (v : Value) : 0x80#16 ≤ v ↔ 0x80 ≤ v.toNat := by
  simp [BitVec.le_def]

/-- A turn of the loop, as a case distinction on V. -/
theorem encodeRun_succ (n : Nat) (s : State) :
    encodeRun (n + 1) s = if 0x80 ≤ s.enc.v.toNat then encodeRun n (encodePass s) else s := by
  simp only [encodeRun, continue_iff]

/-- From 0x80 on a turn makes a pass. -/
theorem encodeRun_pass {s : State} (h : 0x80 ≤ s.enc.v.toNat) (n : Nat) :
    encodeRun (n + 1) s = encodeRun n (encodePass s) := by
  rw [encodeRun_succ, if_pos h]

/-- Below 0x80 the loop is over, whatever turns are left. -/
theorem encodeRun_stop {s : State} (h : s.enc.v.toNat < 0x80) : ∀ n, encodeRun n s = s
  | 0 => rfl
  | n + 1 => by rw [encodeRun_succ, if_neg (by omega)]

/-- The bytes emitted from V: the loop of R80 as a recursion over the turns left. -/
def loopBytes : Nat → Value → List Byte
  | 0, v => [v.setWidth 8]
  | n + 1, v => if 0x80 ≤ v.toNat then groupByte v :: loopBytes n (v >>> 7) else [v.setWidth 8]

theorem encodeRun_bytes : ∀ (n : Nat) (s : State),
    (encodeRun n s).enc.out ++ [(encodeRun n s).enc.v.setWidth 8] = s.enc.out ++ loopBytes n s.enc.v
  | 0, _ => rfl
  | n + 1, s => by
    rw [encodeRun_succ, loopBytes]
    split
    · rw [encodeRun_bytes n]
      simp
    · rfl

theorem loopBytes_eq_canonicalForm (v : Value) : loopBytes 2 v = canonicalForm v := by
  have hv := v.isLt
  simp only [loopBytes, canonicalForm, shift7_toNat, groupByte_eq, lastByte_eq, Nat.div_div_eq_div_mul]
  by_cases h1 : v.toNat < 0x80
  · rw [if_neg (by omega), if_pos h1]
  · by_cases h2 : v.toNat < 0x4000
    · rw [if_pos (by omega), if_neg (by omega), if_neg h1, if_pos h2]
    · rw [if_pos (by omega), if_pos (by omega), if_neg h1, if_neg h2]

theorem canonicalForm_length (v : Value) : (canonicalForm v).length = canonicalLength v := by
  unfold canonicalForm canonicalLength
  split
  · rfl
  · split <;> rfl

/-- Everything ENCODE does: the next state, its outputs, and what it leaves. -/
theorem exec_encode_spec (v : Value) (s : State) :
    ∃ t, exec (.encode v) s = .next t ∧ t.outputs = some (.encoded (canonicalForm v)) ∧
      t.sources = s.sources ∧ t.inputs = s.inputs ∧ t.enc.out.length ≤ 3 := by
  refine ⟨_, rfl, ?_, ?_, ?_, finish_out_length _ _⟩
  · have h := encodeRun_bytes 2 (beginEncode v s)
    simp only [beginEncode_enc, List.nil_append, loopBytes_eq_canonicalForm] at h
    simp only [finish_outputs, emitByte_out]
    rw [h]
    rfl
  · simp
  · simp

end Sys2Proof.Machine
end

