-- ==== Sys2Proof/Laws/PerInstr.lean ====
section
/-!
SUPPORT. Statements about every operation as syntax, one lemma per constructor.
-/

open Sys2Proof

/-- The encoder's command for the operation is well formed and decodes back to it. -/
def Sys2Proof.Laws.EncodeDecode.Statement (i : Instr) : Prop :=
  (Sys2Proof.encode i).WellFormed ∧ Sys2Proof.decode (Sys2Proof.encode i) = i

theorem Sys2Proof.Laws.EncodeDecode.encode (v : Value) :
    Sys2Proof.Laws.EncodeDecode.Statement (.encode v) := by
  simp [Sys2Proof.Laws.EncodeDecode.Statement, Command.WellFormed, Sys2Proof.encode, Sys2Proof.decode]

theorem Sys2Proof.Laws.EncodeDecode.decode (buf : List Byte) :
    Sys2Proof.Laws.EncodeDecode.Statement (.decode buf) := by
  simp [Sys2Proof.Laws.EncodeDecode.Statement, Command.WellFormed, Sys2Proof.encode, Sys2Proof.decode]

theorem Sys2Proof.Laws.EncodeDecode.decodeReader (src : Nat) :
    Sys2Proof.Laws.EncodeDecode.Statement (.decodeReader src) := by
  simp [Sys2Proof.Laws.EncodeDecode.Statement, Command.WellFormed, Sys2Proof.encode, Sys2Proof.decode]

theorem Sys2Proof.Laws.EncodeDecode.decodeStrict (buf : List Byte) :
    Sys2Proof.Laws.EncodeDecode.Statement (.decodeStrict buf) := by
  simp [Sys2Proof.Laws.EncodeDecode.Statement, Command.WellFormed, Sys2Proof.encode, Sys2Proof.decode]
end

