-- ==== Sys2Proof/Laws/Step.lean ====
section
/-!
SUPPORT. What one step can do: the cases of `step` and `perform`, what exec keeps for every operation, and what a
transaction cut short by a reset leaves.
-/

namespace Sys2Proof.Machine

/-- Every step that answers a next state was idle, a reset, an abandoned transaction or a performed one. -/
theorem step_cases {s t : State} (h : step s = .next t) :
    (s.inputs = [] ∧ t = idle s) ∨
    (∃ rest, s.inputs = .reset :: rest ∧ t = resetBlock { s with inputs := rest }) ∨
    (∃ c w rest, s.inputs = .command c w :: rest ∧ brokenDuty w (decode c) = none ∧
      ((∃ k, w.resetAfter = some k ∧ t = abandon k { s with inputs := rest } (decode c)) ∨
        (w.resetAfter = none ∧ exec (decode c) { s with inputs := rest } = .next t))) := by
  unfold step at h
  split at h
  · rename_i hi
    exact .inl ⟨hi, by injection h with h; exact h.symm⟩
  · rename_i rest hi
    exact .inr (.inl ⟨rest, hi, by injection h with h; exact h.symm⟩)
  · rename_i c w rest hi
    unfold perform at h
    split at h
    · cases h
    · rename_i hd
      split at h
      · rename_i k hk
        exact .inr (.inr ⟨c, w, rest, hi, hd, .inl ⟨k, hk, by injection h with h; exact h.symm⟩⟩)
      · rename_i hk
        exact .inr (.inr ⟨c, w, rest, hi, hd, .inr ⟨hk, h⟩⟩)

/-- What every operation does, whatever it is: it answers a next state that presents outputs, takes nothing from the queue
and keeps OUT within its bound. -/
theorem exec_next (i : Instr) (s : State) :
    ∃ t o, exec i s = .next t ∧ t.outputs = some o ∧ t.inputs = s.inputs ∧ t.enc.out.length ≤ 3 := by
  cases i with
  | encode v =>
    obtain ⟨t, h, ho, -, hi, hl⟩ := exec_encode_spec v s
    exact ⟨t, _, h, ho, hi, hl⟩
  | decode buf =>
    obtain ⟨t, h, hi, hl, -, ho⟩ := exec_decode_next buf s
    exact ⟨t, _, h, ho, hi, hl⟩
  | decodeReader src =>
    obtain ⟨t, h, hi, hl, -, ho⟩ := exec_decodeReader_next src s
    exact ⟨t, _, h, ho, hi, hl⟩
  | decodeStrict buf =>
    obtain ⟨t, h, hi, hl, -, ho⟩ := exec_decodeStrict_next buf s
    exact ⟨t, _, h, ho, hi, hl⟩

/-- Requests take answers from the front, so a source in canonical form stays in it. -/
theorem after_wf {x : Source} (h : x.wf) (n p : Nat) : (x.after n p).wf := by
  simp only [Source.wf, Source.after] at *
  by_cases hn : n < x.answers.length
  · rw [List.getLast?_drop, if_neg (by omega)]
    exact h
  · rw [List.drop_eq_nil_of_le (by omega)]
    simp

/-- A decode loop cut after `k` turns: the turns past the third change nothing. -/
theorem decodeRun_min (f : Feed) (k : Nat) (s : State) :
    decodeRun f k (beginDecode s) = decodeRun f (min k 3) (beginDecode s) := by
  by_cases hk : k ≤ 3
  · rw [Nat.min_eq_left hk]
  · rw [Nat.min_eq_right (by omega), show k = 3 + (k - 3) by omega, decodeRun_add]
    refine decodeRun_of_ne_busy ?_ f _
    rw [show decodeRun f 3 (beginDecode s) = decodeEnd f s from rfl, decodeEnd_dec]
    exact endRegs_ne_busy _

/-- A decode loop over a buffer, cut anywhere, changes the decoder's registers alone. -/
theorem decodeRun_buffer_cut (buf : List Byte) (k : Nat) (s : State) :
    ∃ r, decodeRun (.buffer buf) k (beginDecode s) = { beginDecode s with dec := r } := by
  rw [decodeRun_min]
  exact ⟨_, decodeRun_buffer buf _ _ (by show 0 + min k 3 ≤ 3; omega)⟩

/-- A decode loop over a source, cut anywhere, changes the decoder's registers and the bound source alone: it makes the
requests that its turns make, and COUNT and the source's position advance by the bytes among their answers. -/
theorem decodeRun_source_cut (src k : Nat) (s : State) :
    let front := deliverable (sourceAt s.sources src).answers
    let m := min k (requestsMade 3 front DecoderRegs.start)
    ∃ r, decodeRun (.source src) k (beginDecode s) =
      { beginDecode s with
        dec := r
        sources := if m = 0 then s.sources
          else putSource s.sources src ((sourceAt s.sources src).after m r.count.toNat) } ∧
      r.count.toNat = (front.take m).length := by
  intro front m
  have hb := requestsMade_bounds front
  have hm : requestsMade (min k 3) front DecoderRegs.start = m := by
    rw [requestsMade_cut (Nat.min_le_right k 3)]
    omega
  refine ⟨regsAfter (min k 3) front DecoderRegs.start, ?_, ?_⟩
  · rw [decodeRun_min]
    by_cases hk : k = 0
    · subst hk
      simp only [m, Nat.zero_min, if_true]
      rfl
    · rw [if_neg (by omega), ← hm]
      exact decodeRun_source src (min k 3) (beginDecode s) rfl (by omega) (by show 0 + min k 3 ≤ 3; omega)
  · rw [regsAfter_count _ _ _ (by show 0 + min k 3 ≤ 3; omega), hm]
    exact Nat.zero_add _

end Sys2Proof.Machine
end

