-- ==== Sys2Proof/Laws/Wire.lean ====
section
/-!
SUPPORT. Facts of the wire format in the terms of the claims: the front bytes of an accepted input, the class of a canonical
form, the closed form's own loop equation; and that what an operation presents in a state is one thing.
-/

namespace Sys2Proof

theorem byte_eq_ofNat {a : Byte} {n : Nat} (h : a.toNat = n) : a = BitVec.ofNat 8 n := by
  apply BitVec.eq_of_toNat_eq
  rw [h, BitVec.toNat_ofNat]
  have := a.isLt
  omega

theorem classify_one {b0 : Byte} (h0 : ¬ Continues b0) (rest : List Byte) :
    classify (b0 :: rest) = .accepted 1 := by
  rcases rest with _ | ⟨_, _ | _⟩ <;> simp only [classify, if_neg h0]

theorem classify_two {b0 b1 : Byte} (h0 : Continues b0) (h1 : ¬ Continues b1) (rest : List Byte) :
    classify (b0 :: b1 :: rest) = .accepted 2 := by
  cases rest <;> simp only [classify, if_pos h0, if_neg h1]

theorem classify_three {b0 b1 b2 : Byte} (h0 : Continues b0) (h1 : Continues b1) (h2 : ¬ Continues b2)
    (rest : List Byte) : classify (b0 :: b1 :: b2 :: rest) = .accepted 3 := by
  simp only [classify, if_pos h0, if_pos h1, if_neg h2]

theorem classify_long {b0 b1 b2 : Byte} (h0 : Continues b0) (h1 : Continues b1) (h2 : Continues b2)
    (rest : List Byte) : classify (b0 :: b1 :: b2 :: rest) = .outOfBounds := by
  simp only [classify, if_pos h0, if_pos h1, if_pos h2]

/-- The front of an input of each class: exactly one case holds of every input. -/
theorem classify_cases (buf : List Byte) :
    (∃ b0 r, buf = b0 :: r ∧ ¬ Continues b0 ∧ classify buf = .accepted 1) ∨
    (∃ b0 b1 r, buf = b0 :: b1 :: r ∧ Continues b0 ∧ ¬ Continues b1 ∧ classify buf = .accepted 2) ∨
    (∃ b0 b1 b2 r, buf = b0 :: b1 :: b2 :: r ∧ Continues b0 ∧ Continues b1 ∧ ¬ Continues b2 ∧
      classify buf = .accepted 3) ∨
    (∃ b0 b1 b2 r, buf = b0 :: b1 :: b2 :: r ∧ Continues b0 ∧ Continues b1 ∧ Continues b2 ∧
      classify buf = .outOfBounds) ∨
    (buf.length < 3 ∧ (∀ b ∈ buf, Continues b) ∧ classify buf = .incomplete) := by
  rcases buf with _ | ⟨b0, t0⟩
  · exact .inr (.inr (.inr (.inr ⟨by simp, by simp, rfl⟩)))
  by_cases h0 : Continues b0
  · rcases t0 with _ | ⟨b1, t1⟩
    · exact .inr (.inr (.inr (.inr ⟨by simp, by simpa using h0, by simp only [classify, if_pos h0]⟩)))
    by_cases h1 : Continues b1
    · rcases t1 with _ | ⟨b2, t2⟩
      · exact .inr (.inr (.inr (.inr ⟨by simp, by simpa using ⟨h0, h1⟩,
          by simp only [classify, if_pos h0, if_pos h1]⟩)))
      by_cases h2 : Continues b2
      · exact .inr (.inr (.inr (.inl ⟨b0, b1, b2, t2, rfl, h0, h1, h2, classify_long h0 h1 h2 t2⟩)))
      · exact .inr (.inr (.inl ⟨b0, b1, b2, t2, rfl, h0, h1, h2, classify_three h0 h1 h2 t2⟩))
    · exact .inr (.inl ⟨b0, b1, t1, rfl, h0, h1, classify_two h0 h1 t1⟩)
  · exact .inl ⟨b0, t0, rfl, h0, classify_one h0 t0⟩

/-- The class is decided by the accepted bytes alone: whatever follows them makes no difference (R67). -/
theorem classify_front {buf : List Byte} {length : Nat} (h : classify buf = .accepted length) (more : List Byte) :
    classify (buf.take length ++ more) = .accepted length := by
  rcases classify_cases buf with ⟨b0, r, rfl, h0, hc⟩ | ⟨b0, b1, r, rfl, h0, h1, hc⟩ |
    ⟨b0, b1, b2, r, rfl, h0, h1, h2, hc⟩ | ⟨_, _, _, _, rfl, _, _, _, hc⟩ | ⟨_, _, hc⟩ <;> rw [hc] at h
  · injection h with h
    subst h
    exact classify_one h0 more
  · injection h with h
    subst h
    exact classify_two h0 h1 more
  · injection h with h
    subst h
    exact classify_three h0 h1 h2 more
  · cases h
  · cases h

theorem accepted_bounds {buf : List Byte} {length : Nat} (h : classify buf = .accepted length) :
    1 ≤ length ∧ length ≤ 3 ∧ length ≤ buf.length := by
  have hc := Machine.endRegs_of_class buf
  rw [h] at hc
  exact hc.2.2.2.2

/-- The class looks at three bytes at most. -/
theorem classify_congr {a b : List Byte} (h : a.take 3 = b.take 3) : classify a = classify b := by
  rcases a with _ | ⟨a0, _ | ⟨a1, _ | ⟨a2, ra⟩⟩⟩ <;> rcases b with _ | ⟨b0, _ | ⟨b1, _ | ⟨b2, rb⟩⟩⟩ <;>
    simp_all [classify]

/-- A canonical form stands at the front as an accepted encoding of its length, and carries its value. -/
theorem classify_canonicalForm (v : Value) (more : List Byte) :
    classify (canonicalForm v ++ more) = .accepted (canonicalLength v) ∧ wireValue (canonicalForm v) = v.toNat := by
  have hv := v.isLt
  unfold canonicalForm canonicalLength
  split
  · have h0 : ¬ Continues (BitVec.ofNat 8 v.toNat) := by
      simp only [Continues, BitVec.toNat_ofNat]
      omega
    refine ⟨classify_one h0 more, ?_⟩
    simp only [wireValue, BitVec.toNat_ofNat]
    omega
  · split
    · have h0 : Continues (BitVec.ofNat 8 (128 + v.toNat % 128)) := by
        simp only [Continues, BitVec.toNat_ofNat]
        omega
      have h1 : ¬ Continues (BitVec.ofNat 8 (v.toNat / 128)) := by
        simp only [Continues, BitVec.toNat_ofNat]
        omega
      refine ⟨classify_two h0 h1 more, ?_⟩
      simp only [wireValue, BitVec.toNat_ofNat]
      omega
    · have h0 : Continues (BitVec.ofNat 8 (128 + v.toNat % 128)) := by
        simp only [Continues, BitVec.toNat_ofNat]
        omega
      have h1 : Continues (BitVec.ofNat 8 (128 + v.toNat / 128 % 128)) := by
        simp only [Continues, BitVec.toNat_ofNat]
        omega
      have h2 : ¬ Continues (BitVec.ofNat 8 (v.toNat / 16384)) := by
        simp only [Continues, BitVec.toNat_ofNat]
        omega
      refine ⟨classify_three h0 h1 h2 more, ?_⟩
      simp only [wireValue, BitVec.toNat_ofNat]
      omega

/-- The closed form satisfies the loop of R80. -/
theorem canonicalForm_loop (v : Value) :
    canonicalForm v = if 0x80#16 ≤ v then Machine.groupByte v :: canonicalForm (v >>> 7) else [v.setWidth 8] := by
  have hv := v.isLt
  rw [Machine.groupByte_eq, Machine.lastByte_eq]
  simp only [Machine.continue_iff]
  unfold canonicalForm
  simp only [Machine.shift7_toNat]
  by_cases h1 : v.toNat < 0x80
  · rw [if_pos h1, if_neg (by omega)]
  · by_cases h2 : v.toNat < 0x4000
    · rw [if_neg h1, if_pos h2, if_pos (by omega), if_pos (by omega)]
    · rw [if_neg h1, if_neg h2, if_pos (by omega), if_neg (by omega), if_pos (by omega), Nat.div_div_eq_div_mul]

namespace Machine

/-- An operation presents one thing in one state. -/
theorem presents_unique {i : Instr} {s : State} {o p : Outputs} (h : Presents i s o) (h' : Presents i s p) :
    o = p := by
  obtain ⟨t, h1, h2⟩ := h
  obtain ⟨u, h3, h4⟩ := h'
  rw [h1] at h3
  injection h3 with h3
  subst h3
  rw [h2] at h4
  injection h4

/-- What the three decode operations present, by class, as `Presents` facts. -/
theorem presents_decode (buf : List Byte) (s : State) :
    Presents (.decode buf) s (match classify buf with
      | .accepted length => .decoded (wireValue (buf.take length)) length
      | .outOfBounds => .failure 2#2
      | .incomplete => .failure 1#2) := by
  obtain ⟨t, h, -, -, -, ho⟩ := exec_decode_next buf s
  exact ⟨t, h, ho⟩

theorem presents_decodeReader (src : Nat) (s : State) :
    Presents (.decodeReader src) s (match classify (deliverable (sourceAt s.sources src).answers) with
      | .accepted length => .valueOnly (wireValue ((deliverable (sourceAt s.sources src).answers).take length))
      | .outOfBounds => .failure 2#2
      | .incomplete => .failure 1#2) := by
  obtain ⟨t, h, -, -, -, ho⟩ := exec_decodeReader_next src s
  exact ⟨t, h, ho⟩

theorem presents_decodeStrict (buf : List Byte) (s : State) :
    Presents (.decodeStrict buf) s (match classify buf with
      | .accepted length => if length < buf.length then .failure 3#2 else .valueOnly (wireValue (buf.take length))
      | .outOfBounds => .failure 2#2
      | .incomplete => .failure 1#2) := by
  obtain ⟨t, h, -, -, -, ho⟩ := exec_decodeStrict_next buf s
  exact ⟨t, h, ho⟩

/-- A successful DECODE tells the class of its buffer. -/
theorem presents_decode_ok {buf : List Byte} {s : State} {v : Value} {c : BitVec 2}
    (h : Presents (.decode buf) s ⟨0#2, none, none, some v, some c⟩) :
    classify buf = .accepted c.toNat ∧ v = BitVec.ofNat 16 (wireValue (buf.take c.toNat)) := by
  have h' := presents_unique (presents_decode buf s) h
  cases hc : classify buf with
  | accepted length =>
    have hb := accepted_bounds hc
    rw [hc] at h'
    injection h' with _ _ _ h1 h2
    injection h1 with h1
    injection h2 with h2
    have hn : c.toNat = length := by
      rw [← h2, BitVec.toNat_ofNat]
      omega
    rw [hn]
    exact ⟨rfl, h1.symm⟩
  | outOfBounds =>
    rw [hc] at h'
    injection h' with h1
    exact absurd h1 (by decide)
  | incomplete =>
    rw [hc] at h'
    injection h' with h1
    exact absurd h1 (by decide)

/-- DECODE succeeds with a count exactly on the buffers of the class of that length. -/
theorem presents_decode_iff (buf : List Byte) (s : State) (c : BitVec 2) :
    (∃ v, Presents (.decode buf) s ⟨0#2, none, none, some v, some c⟩) ↔ classify buf = .accepted c.toNat := by
  refine ⟨fun ⟨_, h⟩ => (presents_decode_ok h).1, fun h => ?_⟩
  have hp := presents_decode buf s
  rw [h] at hp
  simp only [Outputs.decoded, BitVec.ofNat_toNat, BitVec.setWidth_eq] at hp
  exact ⟨_, hp⟩

/-- DECODE_STRICT succeeds exactly on the buffers that one accepted encoding fills. -/
theorem presents_strict_iff (buf : List Byte) (s : State) :
    (∃ o, Presents (.decodeStrict buf) s o ∧ o.status = 0#2) ↔ classify buf = .accepted buf.length := by
  have hp := presents_decodeStrict buf s
  refine ⟨fun ⟨o, h, ho⟩ => ?_, fun h => ?_⟩
  · rw [← presents_unique hp h] at ho
    cases hc : classify buf with
    | accepted length =>
      have hb := accepted_bounds hc
      simp only [hc] at ho
      split at ho
      · exact absurd ho (by simp)
      · congr 1
        omega
    | outOfBounds => simp [hc] at ho
    | incomplete => simp [hc] at ho
  · simp only [h, Nat.lt_irrefl, if_false] at hp
    exact ⟨_, hp, rfl⟩

theorem presents_encode (v : Value) (s : State) : Presents (.encode v) s (.encoded (canonicalForm v)) := by
  obtain ⟨t, h, ho, -⟩ := exec_encode_spec v s
  exact ⟨t, h, ho⟩

end Machine

end Sys2Proof
end

