-- ==== Sys2Proof/Tests/Slice0.lean ====
section
/-!
SUPPORT. The model's own tests: words of the spec's encodings, ill-formed commands, the spec's test vectors (95_test_vectors.md), and
a witness for the hypotheses of every statement that has any.
-/

namespace Sys2Proof.Tests

open Sys2Proof.Machine

/-- What an outcome presents. -/
def presented : Host.Outcome State Fault Refusal → Option Outputs
  | .next t => t.outputs
  | .fault _ => none
  | .refused _ => none

/-- A field of the next state, if there is one. -/
def after {α : Type} (f : State → α) : Host.Outcome State Fault Refusal → Option α
  | .next t => some (f t)
  | .fault _ => none
  | .refused _ => none

/-- A state right after reset whose source 0 will yield these bytes, then `Exhausted` (R74). -/
def yielding (bytes : List Byte) : State := { State.reset with sources := [(0, ⟨bytes.map .byte, 0, 0⟩)] }

/-- A state right after reset with one command issued. -/
def issued (c : Command) (w : Conduct) : State := { State.reset with inputs := [.command c w] }

/-! ### Words of the encoding (R71) -/

theorem test_word_encode : decodeTableWord 8 0b00 = some (.encode 0#16) := by decide
theorem test_word_decode : decodeTableWord 8 0b01 = some (.decode []) := by decide
theorem test_word_decode_reader : decodeTableWord 8 0b10 = some (.decodeReader 0) := by decide
theorem test_word_decode_strict : decodeTableWord 8 0b11 = some (.decodeStrict []) := by decide
/-- P1 of 95_test_vectors.md, its three commands by their fields. -/
theorem test_program_p1_commands :
    decode ⟨0b00#2, 0x012C#16, [], 0⟩ = .encode 300#16 ∧
    decode ⟨0b01#2, 0#16, [0xAC#8, 0x02#8], 0⟩ = .decode [0xAC#8, 0x02#8] ∧
    decode ⟨0b11#2, 0#16, [0xAC#8, 0x02#8], 0⟩ = .decodeStrict [0xAC#8, 0x02#8] := by decide
theorem test_no_selector : commandOfBytes [] = .error .noSelector := by rfl

/-! ### Ill-formed commands -/

theorem test_ill_formed_value : ¬ Command.WellFormed ⟨0b01#2, 1#16, [], 0⟩ := by decide
theorem test_ill_formed_buf_encode : ¬ Command.WellFormed ⟨0b00#2, 1#16, [0#8], 0⟩ := by decide
theorem test_ill_formed_buf_reader : ¬ Command.WellFormed ⟨0b10#2, 0#16, [0#8], 0⟩ := by decide
theorem test_ill_formed_src : ¬ Command.WellFormed ⟨0b11#2, 0#16, [], 1⟩ := by decide

/-! ### Test vectors -/

/-- 95 section 2.1: 43981. -/
theorem test_encode_abcd :
    presented (exec (.encode 0xABCD#16) State.reset) = some ⟨0#2, some 3#2, some [0xCD#8, 0xD7#8, 0x02#8], none, none⟩ := by
  decide
/-- 95 section 2.1: 256, a payload of zero under a set continuation bit. -/
theorem test_encode_256 :
    presented (exec (.encode 256#16) State.reset) = some ⟨0#2, some 2#2, some [0x80#8, 0x02#8], none, none⟩ := by decide
/-- 95 section 2.2: a trailing byte after a 3-byte value. -/
theorem test_decode_trailing :
    presented (exec (.decode [0xCD#8, 0xD7#8, 0x02#8, 0xAA#8]) State.reset) =
      some ⟨0#2, none, none, some 43981#16, some 3#2⟩ := by decide
/-- 95 section 2.2: a third continuation byte, no fourth byte (C1). -/
theorem test_decode_out_of_bounds :
    presented (exec (.decode [0x80#8, 0x80#8, 0x80#8]) State.reset) = some ⟨2#2, none, none, none, none⟩ := by decide
/-- 95 section 2.4: 0x05 remains. -/
theorem test_reader_leaves_next_byte :
    after (fun t => (t.outputs, sourceAt t.sources 0)) (exec (.decodeReader 0) (yielding [0x80#8, 0x01#8, 0x05#8])) =
      some (some ⟨0#2, none, none, some 128#16, none⟩, ⟨[.byte 0x05#8], 2, 2⟩) := by decide
/-- 95 section 2.4: two continuation bytes and then nothing, three requests. -/
theorem test_reader_exhausted :
    after (fun t => (t.outputs, sourceAt t.sources 0)) (exec (.decodeReader 0) (yielding [0x80#8, 0x80#8])) =
      some (some ⟨1#2, none, none, none, none⟩, ⟨[], 2, 3⟩) := by decide
/-- 95 section 2.3: the source's own example, §8(7). -/
theorem test_strict_trailing :
    presented (exec (.decodeStrict [0x01#8, 0x02#8]) State.reset) = some ⟨3#2, none, none, none, none⟩ := by decide
/-- 95 section 2.3: bits 6:2 of the third byte are discarded. -/
theorem test_strict_third_byte :
    presented (exec (.decodeStrict [0xFF#8, 0xFF#8, 0x7F#8]) State.reset) =
      some ⟨0#2, none, none, some 65535#16, none⟩ := by decide
/-- 95 section 2.5: the registers after each byte step of [0xFF, 0xFF, 0x03]. -/
theorem test_byte_step_trace :
    byteStep (.byte 0xFF#8) ⟨0#16, 0#5, 0#2, .busy⟩ = ⟨127#16, 7#5, 1#2, .busy⟩ ∧
    byteStep (.byte 0xFF#8) ⟨127#16, 7#5, 1#2, .busy⟩ = ⟨16383#16, 14#5, 2#2, .busy⟩ ∧
    byteStep (.byte 0x03#8) ⟨16383#16, 14#5, 2#2, .busy⟩ = ⟨65535#16, 14#5, 3#2, .done⟩ := by decide
/-- 95 section 2.6, on the claims' side. -/
theorem test_classify_padded : classify [0x80#8, 0x00#8] = .accepted 2 ∧ wireValue [0xFF#8, 0xFF#8, 0x7F#8] = 65535 ∧
    canonicalForm 0xFFFF#16 = [0xFF#8, 0xFF#8, 0x03#8] := by decide
/-- Abandoned by a reset after one byte step (R172): no outputs, the source advanced by one. -/
theorem test_reset_inside :
    after (fun t => (t.outputs, sourceAt t.sources 0))
      (step { yielding [0x80#8, 0x01#8] with inputs := [.command (encode (.decodeReader 0)) ⟨true, true, some 1⟩] }) =
      some (none, ⟨[.byte 0x01#8], 1, 1⟩) := by decide
/-- Abandoned by a reset before the first byte step (R172: the COUNT reached is 0): the source as it was. -/
theorem test_reset_inside_at_once :
    after (fun t => (t.outputs, sourceAt t.sources 0))
      (step { yielding [0x80#8, 0x01#8] with inputs := [.command (encode (.decodeReader 0)) ⟨true, true, some 0⟩] }) =
      some (none, ⟨[.byte 0x80#8, .byte 0x01#8], 0, 0⟩) := by decide

/-! ### Witnesses of hypotheses, by statement -/

theorem witness_DecodedCommandEncodesBack : (encode (.decode [0x05#8])).WellFormed := by decide

theorem witness_StepPerformsTheIssuedCommand :
    (issued (encode (.decode [0x05#8])) Conduct.dutiful).inputs =
      .command (encode (.decode [0x05#8])) Conduct.dutiful :: [] ∧
    brokenDuty Conduct.dutiful (decode (encode (.decode [0x05#8]))) = none ∧ Conduct.dutiful.resetAfter = none := by decide

theorem witness_FetchedTableWordRunsItsOperation : ∃ i, decodeTableWord 8 3 = some i := ⟨_, rfl⟩

theorem witness_StepTakesTheOldestInput : ∃ t, step (issued (encode (.encode 300#16)) Conduct.dutiful) = .next t :=
  ⟨_, rfl⟩

theorem witness_IdleAndResetPresentNothing :
    State.reset.inputs = [] ∧ ({ State.reset with inputs := [.reset] } : State).inputs = .reset :: [] := by decide

theorem witness_StepStopsOnlyOnABrokenDuty :
    DutyKept (issued (encode (.encode 300#16)) Conduct.dutiful) ∧
    step (issued (encode (.encode 300#16)) ⟨false, true, none⟩) = .refused .operandsChanged := by
  refine ⟨?_, rfl⟩
  intro c w rest h
  injection h with h _
  injection h with hc hw
  subst hc hw
  rfl

theorem witness_ChangedOperandIsRefused :
    (⟨false, true, none⟩ : Conduct).operandsHeld = false ∧
    ∀ src, decode (encode (.decodeStrict [0x05#8])) ≠ .decodeReader src :=
  ⟨rfl, fun _ h => nomatch h⟩

theorem witness_SharedSourceIsRefused :
    decode (encode (.decodeReader 7)) = .decodeReader 7 ∧ (⟨true, false, none⟩ : Conduct).sourceExclusive = false := by
  decide

/-- A transaction with a source and one without, abandoned before the first turn, inside, and past the last one. -/
theorem witness_ResetInsideATransactionPresentsNothing :
    ∀ k ∈ [0, 1, 5], brokenDuty ⟨true, true, some k⟩ (decode (encode (.decodeReader 0))) = none ∧
      brokenDuty ⟨true, true, some k⟩ (decode (encode (.decode [0x80#8, 0x01#8]))) = none ∧
      (⟨true, true, some k⟩ : Conduct).resetAfter = some k := by decide

/-- Sequences that the counts count, and one that they leave out. -/
theorem witness_CountsOfEncodings :
    Presents (.decode [0x80#8, 0x00#8]) State.reset ⟨0#2, none, none, some 0#16, some 2#2⟩ ∧
    Presents (.decodeStrict [0xFF#8, 0xFF#8, 0x7F#8]) State.reset (.valueOnly 65535) ∧
    Presents (.decode [0x7F#8, 0x00#8]) State.reset ⟨0#2, none, none, some 127#16, some 1#2⟩ :=
  ⟨presents_decode _ _, presents_decodeStrict _ _, presents_decode _ _⟩

/-- A longer encoding, one as long at the last admitted third byte, and the encoder's own. -/
theorem witness_EncodeIsMinimal :
    (classify [0x80#8, 0x00#8] = .accepted 2 ∧ wireValue ([0x80#8, 0x00#8].take 2) = (0#16 : Value).toNat) ∧
    (classify [0xFF#8, 0xFF#8, 0x03#8] = .accepted 3 ∧
      wireValue ([0xFF#8, 0xFF#8, 0x03#8].take 3) = (0xFFFF#16 : Value).toNat ∧
      ([0xFF#8, 0xFF#8, 0x03#8] : List Byte)[2]? = some 0x03#8 ∧ (0x03#8 : Byte).toNat < 4) := by decide

theorem witness_EncodedByteCarriesItsGroup : (canonicalForm 0x4000#16)[2]? = some 0x01#8 := by decide

theorem witness_ByteStepRule :
    DecoderRegs.start.phase = .busy ∧ State.reset.dec.phase ≠ .busy ∧ (⟨0#16, 14#5, 2#2, .busy⟩ : DecoderRegs).phase = .busy := by
  decide

theorem witness_RunningShiftIsSevenTimesCount :
    RunningRegs ⟨5#16, 14#5, 2#2, .busy⟩ ∧ (⟨5#16, 14#5, 2#2, .busy⟩ : DecoderRegs).phase = .busy :=
  ⟨fun _ => by decide, rfl⟩

theorem witness_FinalPhasesTakeNoByte : State.reset.dec.phase ≠ .busy := by decide

theorem witness_CountAtTheEndOfADecode :
    (decodeEnd (.buffer [0x80#8, 0x01#8]) State.reset).dec.phase = .done ∧
    (decodeEnd (.buffer []) State.reset).dec.phase = .failed .unexpectedEndOfInput ∧
    (decodeEnd (.source 0) (yielding [0xFF#8, 0xFF#8])).dec.phase = .failed .unexpectedEndOfInput ∧
    (decodeEnd (.source 0) (yielding [0xFF#8, 0xFF#8, 0xFF#8])).dec.phase = .failed .encodingOutOfBounds := by decide

theorem witness_ResultDependsOnOperandsAlone :
    ∃ s1 s2 : State, s1 ≠ s2 ∧ (sourceAt s1.sources 0).answers = (sourceAt s2.sources 0).answers :=
  ⟨State.reset, { State.reset with draws := 5 }, by decide, rfl⟩

/-- Every class of the statements by class, at the lengths where they meet. -/
theorem witness_DecodeFollowsTheWireClasses :
    classify [0x7F#8] = .accepted 1 ∧ classify [0x80#8, 0x7F#8] = .accepted 2 ∧
    classify [0x80#8, 0x80#8, 0x7F#8] = .accepted 3 ∧ classify [0x80#8, 0x80#8, 0x80#8] = .outOfBounds ∧
    classify [] = .incomplete ∧ classify [0x80#8] = .incomplete ∧ classify [0x80#8, 0x80#8] = .incomplete := by decide

theorem witness_ContinuationBitsTellTheLength :
    (0x7F#8 : Byte).getLsbD 7 = false ∧ (0x80#8 : Byte).getLsbD 7 = true ∧ (0xFF#8 : Byte).getLsbD 7 = true ∧
    ([0x80#8, 0xFF#8] : List Byte).length < 3 ∧ ∀ b ∈ ([0x80#8, 0xFF#8] : List Byte), b.getLsbD 7 = true := by decide

theorem witness_ThirdByteGivesTwoBits :
    (0xFF#8 : Byte).getLsbD 7 = true ∧ (0x80#8 : Byte).getLsbD 7 = true ∧ (0x7C#8 : Byte).getLsbD 7 = false := by decide

theorem witness_PaddedEncodingsAreAccepted :
    classify [0x80#8, 0x80#8, 0x00#8] = .accepted 3 ∧
    deliverable (sourceAt (yielding [0x80#8, 0x80#8, 0x00#8]).sources 0).answers = [0x80#8, 0x80#8, 0x00#8] := by decide

theorem witness_DecodeReaderFollowsTheWireClasses :
    classify (deliverable (sourceAt (yielding [0x80#8, 0x01#8, 0x05#8]).sources 0).answers) = .accepted 2 ∧
    classify (deliverable (sourceAt (yielding [0x80#8, 0x80#8, 0x80#8, 0x01#8]).sources 0).answers) = .outOfBounds ∧
    classify (deliverable (sourceAt (yielding [0x80#8, 0x80#8]).sources 0).answers) = .incomplete := by decide

theorem witness_StrictDecodeFollowsTheWireClasses :
    classify [0x80#8, 0x00#8] = .accepted ([0x80#8, 0x00#8] : List Byte).length ∧
    classify [0x80#8, 0x01#8, 0x00#8] = .accepted 2 ∧ 2 < ([0x80#8, 0x01#8, 0x00#8] : List Byte).length ∧
    classify [0x80#8, 0x80#8, 0x80#8, 0x00#8] = .outOfBounds ∧ classify [0x80#8] = .incomplete := by decide

theorem witness_BytesPastTheValueAreNotRead :
    Presents (.decode [0x05#8, 0xFF#8]) State.reset ⟨0#2, none, none, some 5#16, some 1#2⟩ ∧
    ([0x80#8, 0x80#8, 0x01#8, 0xAA#8] : List Byte).take 3 = ([0x80#8, 0x80#8, 0x01#8, 0xBB#8] : List Byte).take 3 ∧
    ([0x80#8, 0x80#8, 0x01#8, 0xAA#8] : List Byte).length = ([0x80#8, 0x80#8, 0x01#8, 0xBB#8] : List Byte).length :=
  ⟨presents_decode _ _, rfl, rfl⟩

theorem witness_UnexpectedEndExactlyWhenBytesRunOut :
    Presents (.decodeReader 0) (yielding [0x80#8]) (.failure 1#2) ∧ Presents (.decode []) State.reset (.failure 1#2) ∧
    Presents (.decodeStrict [0x80#8, 0xFF#8]) State.reset (.failure 1#2) :=
  ⟨presents_decodeReader _ _, presents_decode _ _, presents_decodeStrict _ _⟩

theorem witness_OutOfBoundsExactlyOnAThirdContinuation :
    Presents (.decodeReader 0) (yielding [0x80#8, 0xFF#8, 0x80#8]) (.failure 2#2) ∧
    Presents (.decode [0x80#8, 0x80#8, 0x80#8, 0x01#8]) State.reset (.failure 2#2) ∧
    Presents (.decodeStrict [0x80#8, 0x80#8, 0x80#8]) State.reset (.failure 2#2) ∧
    (⟨0#16, 14#5, 2#2, .busy⟩ : DecoderRegs).shift = 14#5 :=
  ⟨presents_decodeReader _ _, presents_decode _ _, presents_decodeStrict _ _, rfl⟩

theorem witness_TrailingDataOnlyFromStrictDecode :
    Presents (.decodeStrict [0x05#8, 0xFF#8]) State.reset (.failure 3#2) ∧
    (∀ buf, Instr.encode 5#16 ≠ .decodeStrict buf) ∧ Presents (.encode 5#16) State.reset (.encoded [0x05#8]) :=
  ⟨presents_decodeStrict _ _, fun _ h => (nomatch h), presents_encode _ _⟩

theorem witness_OutputsArePresentedByTheTable :
    ∃ t o, exec (.decodeReader 0) (yielding [0x05#8]) = .next t ∧ t.outputs = some o ∧ o.status = 0#2 :=
  ⟨_, _, rfl, rfl, rfl⟩

theorem witness_BufferOperationsLeaveTheSources : ∀ src, Instr.encode 5#16 ≠ .decodeReader src :=
  fun _ h => nomatch h

theorem witness_ReaderTouchesOnlyItsSource : ∃ t, exec (.decodeReader 0) (yielding [0x80#8, 0x01#8]) = .next t :=
  ⟨_, rfl⟩

theorem witness_ReadByteConsumesOneByte :
    (sourceAt (yielding [0x05#8]).sources 0).answers = .byte 0x05#8 :: [] ∧
    deliverable (sourceAt (yielding []).sources 0).answers = [] ∧ (1 : Nat) ≠ 0 := by decide

theorem witness_SourceTableReadsBack :
    SourcesWf (yielding [0x05#8]).sources ∧ Source.wf ⟨[.exhausted, .byte 0x05#8], 0, 0⟩ ∧ Source.empty.wf := by decide

theorem witness_DecodeInvertsEncode :
    (sourceAt (yielding [0xAC#8, 0x02#8, 0x07#8]).sources 0).answers =
      ([0xAC#8, 0x02#8] : List Byte).map .byte ++ [.byte 0x07#8] := by decide

theorem witness_CanonicalExactlyWhenReencodedTheSame :
    Presents (.decode [0xFF#8, 0xFF#8, 0x7F#8]) State.reset ⟨0#2, none, none, some 65535#16, some 3#2⟩ :=
  presents_decode _ _

theorem witness_SuccessiveValuesDecodeInOrder :
    (sourceAt (yielding [0xE8#8, 0x07#8, 0x01#8]).sources 0).answers =
      (canonicalForm 1000#16 ++ canonicalForm 1#16).map .byte ++ [] := by decide

/-- The invariant holds of a state that lists a source, presents outputs and has a command to perform. -/
theorem witness_StepKeepsTheInvariant :
    ∃ s t : State, s.Inv ∧ s.sources ≠ [] ∧ s.outputs.isSome ∧ step s = .next t :=
  ⟨{ yielding [0x80#8, 0x01#8] with
      outputs := some (.failure 1#2)
      inputs := [.command (encode (.decodeReader 0)) Conduct.dutiful] }, _,
    ⟨by decide, fun o h => by injection h with h; subst h; simp [Outputs.Legal], by decide⟩, by decide, rfl, rfl⟩

end Sys2Proof.Tests
end

/-! The length of an encoding from its continuation bits (R63): bit 7 as the claims' `Continues`, the class of a short input
whose bytes all continue, and what DECODE presents for each class. -/

namespace Sys2Proof

theorem classify_short {buf : List Byte} (hlen : buf.length < 3) (hall : ∀ b ∈ buf, Continues b) :
    classify buf = .incomplete := by
  match buf with
  | [] => rfl
  | [b0] =>
    have h0 : Continues b0 := hall b0 (by simp)
    simp only [classify, if_pos h0]
  | [b0, b1] =>
    have h0 : Continues b0 := hall b0 (by simp)
    have h1 : Continues b1 := hall b1 (by simp)
    simp only [classify, if_pos h0, if_pos h1]
  | _ :: _ :: _ :: _ =>
    simp only [List.length_cons] at hlen
    omega

namespace Machine

theorem getLsbD_seven_true (b : Byte) : b.getLsbD 7 = true ↔ Continues b := contBit_true b

theorem getLsbD_seven_false (b : Byte) : b.getLsbD 7 = false ↔ ¬ Continues b := contBit_false b

section
variable {buf : List Byte} {s : State}

theorem presents_decode_accepted {length : Nat} (h : classify buf = .accepted length) :
    Presents (.decode buf) s (.decoded (wireValue (buf.take length)) length) := by
  simpa only [h] using presents_decode buf s

theorem presents_decode_outOfBounds (h : classify buf = .outOfBounds) : Presents (.decode buf) s (.failure 2#2) := by
  simpa only [h] using presents_decode buf s

theorem presents_decode_incomplete (h : classify buf = .incomplete) : Presents (.decode buf) s (.failure 1#2) := by
  simpa only [h] using presents_decode buf s

end

/-- Settles O29: the continuation bits of the front bytes fix the class of the buffer (R67), and DECODE presents by class. -/
theorem continuationBitsTellTheLength : Obligations.ContinuationBitsTellTheLength := by
  unfold Obligations.ContinuationBitsTellTheLength
  intro s buf
  simp only [getLsbD_seven_true, getLsbD_seven_false]
  refine ⟨?one, ?two, ?three, ?tooLong, ?tooShort⟩
  case one =>
    rintro b0 rest rfl h0
    exact ⟨_, presents_decode_accepted (classify_one h0 rest)⟩
  case two =>
    rintro b0 b1 rest rfl h0 h1
    exact ⟨_, presents_decode_accepted (classify_two h0 h1 rest)⟩
  case three =>
    rintro b0 b1 b2 rest rfl h0 h1 h2
    exact ⟨_, presents_decode_accepted (classify_three h0 h1 h2 rest)⟩
  case tooLong =>
    rintro b0 b1 b2 rest rfl h0 h1 h2
    exact presents_decode_outOfBounds (classify_long h0 h1 h2 rest)
  case tooShort =>
    intro hlen hall
    exact presents_decode_incomplete (classify_short hlen hall)

end Machine

end Sys2Proof

/-! The length of ENCODE's output (R80, R82, R84): the ranges of the canonical length, the passes that the encoder's loop still
has to make, and LEN as the number of bytes presented. -/

namespace Sys2Proof

/-- The three ranges of R82, each with its length. -/
theorem canonicalLength_cases (v : Value) :
    (v.toNat < 0x80 ∧ canonicalLength v = 1) ∨
    (0x80 ≤ v.toNat ∧ v.toNat < 0x4000 ∧ canonicalLength v = 2) ∨
    (0x4000 ≤ v.toNat ∧ canonicalLength v = 3) := by
  unfold canonicalLength
  by_cases h1 : v.toNat < 0x80
  · exact .inl ⟨h1, if_pos h1⟩
  · rw [if_neg h1]
    by_cases h2 : v.toNat < 0x4000
    · exact .inr (.inl ⟨by omega, h2, if_pos h2⟩)
    · exact .inr (.inr ⟨by omega, if_neg h2⟩)

theorem canonicalLength_bounds (v : Value) : 1 ≤ canonicalLength v ∧ canonicalLength v ≤ 3 := by
  have hcases := canonicalLength_cases v
  omega

/-- A value of 16 bits holds no group beyond the third, so the length counts the powers of 128 that the value reaches. -/
theorem lt_canonicalLength_iff (v : Value) (j : Nat) : j < canonicalLength v - 1 ↔ 128 ^ (j + 1) ≤ v.toNat := by
  have hcases := canonicalLength_cases v
  match j with
  | 0 => omega
  | 1 => omega
  | j + 2 =>
    have hv := v.isLt
    have hpow : 128 ^ 3 ≤ 128 ^ (j + 2 + 1) := Nat.pow_le_pow_right (by decide) (by omega)
    omega

namespace Machine

/-- A further pass is due after `j` turns exactly when V has a bit set beyond its first `j + 1` groups of seven (R80). -/
theorem encodeRun_due_iff : ∀ (j : Nat) (s : State),
    0x80 ≤ (encodeRun j s).enc.v.toNat ↔ 128 ^ (j + 1) ≤ s.enc.v.toNat
  | 0, _ => Iff.rfl
  | j + 1, s => by
    by_cases hdue : 0x80 ≤ s.enc.v.toNat
    · rw [encodeRun_pass hdue, encodeRun_due_iff j, encodePass_v, shift7_toNat,
        Nat.le_div_iff_mul_le (by decide), ← Nat.pow_succ]
    · have hpow : 128 ^ 1 ≤ 128 ^ (j + 1 + 1) := Nat.pow_le_pow_right (by decide) (by omega)
      rw [encodeRun_stop (by omega)]
      omega

/-- LEN, a port of two bits, does not wrap (R70). -/
theorem canonicalForm_len_toNat (v : Value) :
    (BitVec.ofNat 2 (canonicalForm v).length).toNat = canonicalLength v := by
  have hbounds := canonicalLength_bounds v
  rw [canonicalForm_length, BitVec.toNat_ofNat]
  omega

/-- Settles O15: the closed form is the function of the value that the loop of R80 computes. -/
theorem encodeFollowsItsLoop : Obligations.EncodeFollowsItsLoop := by
  unfold Obligations.EncodeFollowsItsLoop
  refine ⟨fun _ _ _ => rfl, fun v s => beginEncode_enc s v,
    ⟨canonicalForm, canonicalForm_loop, fun v => ?lengths, presents_encode⟩, fun s => ?corners⟩
  case lengths =>
    rw [canonicalForm_length]
    exact canonicalLength_bounds v
  case corners =>
    exact ⟨presents_encode _ s, presents_encode _ s, presents_encode _ s, presents_encode _ s, presents_encode _ s,
      presents_encode _ s⟩

/-- Settles O17: LEN is the canonical length, and both it and the passes left are decided by the powers of 128 that the value
reaches. -/
theorem encodeLengthBoundaries : Obligations.EncodeLengthBoundaries := by
  unfold Obligations.EncodeLengthBoundaries
  intro v s
  obtain ⟨t, hexec, houtputs, -⟩ := exec_encode_spec v s
  have hcases := canonicalLength_cases v
  refine ⟨t, _, _, hexec, houtputs, ?_⟩
  rw [canonicalForm_len_toNat]
  refine ⟨canonicalForm_length v, by omega, by omega, by omega, by omega, fun j => ?_⟩
  rw [encodeRun_due_iff, beginEncode_enc, lt_canonicalLength_iff]

/-- Settles O19: what ENCODE presents has STATUS OK whatever the bytes are, and the sink appends each of them (R44). -/
theorem encodeNeverFails : Obligations.EncodeNeverFails := by
  unfold Obligations.EncodeNeverFails
  refine ⟨fun v s => ?_, fun b s => emitByte_out s b⟩
  obtain ⟨t, hexec, houtputs, -⟩ := exec_encode_spec v s
  have hcodes : 0#2 ≠ 1#2 ∧ 0#2 ≠ 2#2 ∧ 0#2 ≠ 3#2 := by decide
  exact ⟨t, _, hexec, houtputs, rfl, hcodes⟩

end Machine

end Sys2Proof

/-! The byte step of R100 with bit 7 of the byte read as the claims read it. -/

namespace Sys2Proof.Machine

/-- Settles O22: one clause per input in phase Busy, and the final phases, each from its own law of the byte step. -/
theorem byteStepRule : Obligations.ByteStepRule := by
  unfold Obligations.ByteStepRule
  refine fun r => ⟨byteStep_exhausted, fun hbusy b => ?byte, byteStep_of_ne_busy⟩
  case byte =>
    rw [byteStep_byte hbusy]
    simp only [getLsbD_seven_true, getLsbD_seven_false, ge_iff_le, payloadAt, payload]

end Sys2Proof.Machine

/-! The three error kinds (R141 to R143): the classes of R67 that are errors by their front bytes, the one way in which every
decode operation raises an error of its loop, and what DECODE_STRICT adds to them. -/

namespace Sys2Proof

theorem classify_incomplete_iff (bs : List Byte) :
    classify bs = .incomplete ↔ bs.length < 3 ∧ ∀ b ∈ bs, Continues b := by
  refine ⟨fun h => ?_, fun ⟨hlen, hall⟩ => classify_short hlen hall⟩
  rcases classify_cases bs with ⟨_, _, _, _, hc⟩ | ⟨_, _, _, _, _, _, hc⟩ | ⟨_, _, _, _, _, _, _, _, hc⟩ |
    ⟨_, _, _, _, _, _, _, _, hc⟩ | ⟨hlen, hall, _⟩
  case inr.inr.inr.inr => exact ⟨hlen, hall⟩
  all_goals exact absurd (hc.symm.trans h) (by simp)

theorem classify_outOfBounds_iff (bs : List Byte) :
    classify bs = .outOfBounds ↔
      ∃ b0 b1 b2 rest, bs = b0 :: b1 :: b2 :: rest ∧ Continues b0 ∧ Continues b1 ∧ Continues b2 := by
  constructor
  · intro h
    rcases classify_cases bs with ⟨_, _, _, _, hc⟩ | ⟨_, _, _, _, _, _, hc⟩ | ⟨_, _, _, _, _, _, _, _, hc⟩ |
      ⟨b0, b1, b2, rest, hbs, h0, h1, h2, _⟩ | ⟨_, _, hc⟩
    case inr.inr.inr.inl => exact ⟨b0, b1, b2, rest, hbs, h0, h1, h2⟩
    all_goals exact absurd (hc.symm.trans h) (by simp)
  · rintro ⟨b0, b1, b2, rest, rfl, h0, h1, h2⟩
    exact classify_long h0 h1 h2 rest

namespace Machine

/-! ### The phase at the end of the loop, by class -/

theorem endRegs_unexpectedEnd_iff (bs : List Byte) :
    (endRegs bs).phase = .failed .unexpectedEndOfInput ↔ classify bs = .incomplete := by
  have hcls := endRegs_of_class bs
  split at hcls <;> simp [*]

theorem endRegs_outOfBounds_iff (bs : List Byte) :
    (endRegs bs).phase = .failed .encodingOutOfBounds ↔ classify bs = .outOfBounds := by
  have hcls := endRegs_of_class bs
  split at hcls <;> simp [*]

theorem requestsMade_of_outOfBounds {bs : List Byte} (h : classify bs = .outOfBounds) :
    requestsMade 3 bs DecoderRegs.start = 3 := by
  have hcls := endRegs_of_class bs
  rw [h] at hcls
  obtain ⟨-, -, hreq, -⟩ := hcls
  exact hreq

theorem after_requests (x : Source) (n p : Nat) : (x.after n p).requests = x.requests + n := rfl

/-- The requests a bound source has seen when the loop is over. -/
theorem decodeEnd_source_requests (k : Nat) (s : State) :
    (sourceAt (decodeEnd (.source k) s).sources k).requests =
      (sourceAt s.sources k).requests + requestsMade 3 (available s (.source k)) DecoderRegs.start := by
  obtain ⟨hone, -⟩ := requestsMade_bounds (deliverable (sourceAt s.sources k).answers)
  simp only [decodeEnd_source, sourceAt_put_same (after_ne_empty _ hone _), after_requests, available]

theorem bufferAnswer_exhausted_iff (buf : List Byte) (n : Nat) :
    bufferAnswer buf n = .exhausted ↔ buf.length ≤ n := by
  constructor
  · intro h
    by_contra hlt
    have hbyte := bufferAnswer_drop (List.drop_eq_getElem_cons (Nat.lt_of_not_le hlt))
    exact absurd (hbyte.symm.trans h) (by simp)
  · exact fun h => bufferAnswer_end (List.drop_eq_nil_of_le h)

/-! ### Errors of the loop, as the decode operations present them -/

/-- The decode operations, each with the feed its bytes come from (R30). -/
inductive DecodesFrom : Feed → Instr → Prop
  | decode (buf : List Byte) : DecodesFrom (.buffer buf) (.decode buf)
  | decodeReader (src : Nat) : DecodesFrom (.source src) (.decodeReader src)
  | decodeStrict (buf : List Byte) : DecodesFrom (.buffer buf) (.decodeStrict buf)

theorem statusCode_injective {e e' : ErrorKind} (h : statusCode e = statusCode e') : e = e' := by
  revert h
  cases e <;> cases e' <;> decide

/-- What follows a successful decode presents OK or, in DECODE_STRICT, TrailingData: no code of an error of the loop. -/
def EndsWell (onDone : State → State) : Prop :=
  ∀ t e, (onDone t).outputs = some (.failure (statusCode e)) → e = .trailingData

theorem decodeDone_endsWell : EndsWell decodeDone := by
  intro t e h
  simp [decodeDone] at h

theorem decodeReaderDone_endsWell : EndsWell decodeReaderDone := by
  intro t e h
  simp [decodeReaderDone] at h

theorem decodeStrictDone_endsWell (n : Nat) : EndsWell (decodeStrictDone n) := by
  intro t e h
  unfold decodeStrictDone at h
  split at h
  · simp only [raiseError_outputs, Option.some.injEq, Outputs.mk.injEq] at h
    exact (statusCode_injective h.1).symm
  · simp at h

theorem exec_of_decodesFrom {f : Feed} {i : Instr} (h : DecodesFrom f i) (s : State) :
    ∃ onDone, EndsWell onDone ∧ exec i s = .next (concludeDecode onDone (decodeEnd f s)) := by
  cases h with
  | decode buf => exact ⟨_, decodeDone_endsWell, rfl⟩
  | decodeReader src => exact ⟨_, decodeReaderDone_endsWell, rfl⟩
  | decodeStrict buf => exact ⟨_, decodeStrictDone_endsWell buf.length, rfl⟩

theorem presents_of_exec {i : Instr} {s t : State} (h : exec i s = .next t) (o : Outputs) :
    Presents i s o ↔ t.outputs = some o := by
  simp [Presents, h]

/-- R140, R146: a decode operation presents the code of an error other than TrailingData exactly when its loop ends in that
error. -/
theorem presents_failure_iff {f : Feed} {i : Instr} (hi : DecodesFrom f i) (s : State) {e : ErrorKind}
    (he : e ≠ .trailingData) :
    Presents i s (.failure (statusCode e)) ↔ (decodeEnd f s).dec.phase = .failed e := by
  obtain ⟨onDone, hwell, hexec⟩ := exec_of_decodesFrom hi s
  rw [presents_of_exec hexec, concludeDecode]
  cases hp : (decodeEnd f s).dec.phase with
  | busy =>
    rw [decodeEnd_dec] at hp
    exact absurd hp (endRegs_ne_busy _)
  | done => simpa using fun h => he (hwell _ _ h)
  | failed e' =>
    simp only [raiseError_outputs, Option.some.injEq, Outputs.mk.injEq, and_true, Phase.failed.injEq]
    exact ⟨statusCode_injective, congrArg statusCode⟩

/-- Settles O36: the loop ends in this error exactly on the class of the incomplete inputs, and the operations present it
exactly when the loop ends in it. -/
theorem unexpectedEndExactlyWhenBytesRunOut : Obligations.UnexpectedEndExactlyWhenBytesRunOut := by
  unfold Obligations.UnexpectedEndExactlyWhenBytesRunOut
  intro s f front runsOut
  have hphase : (decodeEnd f s).dec.phase = .failed .unexpectedEndOfInput ↔ runsOut := by
    rw [decodeEnd_dec, endRegs_unexpectedEnd_iff, classify_incomplete_iff]
    simp only [runsOut, getLsbD_seven_true, front]
  have hpresents : ∀ i, DecodesFrom f i → (Presents i s (.failure 1#2) ↔ runsOut) := fun i hi =>
    (presents_failure_iff hi s (e := .unexpectedEndOfInput) (by decide)).trans hphase
  refine ⟨hphase, ?buffer, ?source, fun r hbusy => ?step, bufferAnswer_exhausted_iff⟩
  case buffer =>
    rintro buf rfl
    exact ⟨hpresents _ (.decode buf), hpresents _ (.decodeStrict buf)⟩
  case source =>
    rintro src rfl
    exact hpresents _ (.decodeReader src)
  case step => rw [byteStep_exhausted hbusy]

/-- Settles O37: the loop ends in this error exactly on the class of the inputs that are out of bounds, and for these it has
made three requests. -/
theorem outOfBoundsExactlyOnAThirdContinuation : Obligations.OutOfBoundsExactlyOnAThirdContinuation := by
  unfold Obligations.OutOfBoundsExactlyOnAThirdContinuation
  intro s f front tooLong
  have hclass : classify front = .outOfBounds ↔ tooLong := by
    rw [classify_outOfBounds_iff]
    simp only [tooLong, getLsbD_seven_true]
  have hphase : (decodeEnd f s).dec.phase = .failed .encodingOutOfBounds ↔ tooLong := by
    rw [decodeEnd_dec, endRegs_outOfBounds_iff]
    exact hclass
  have hpresents : ∀ i, DecodesFrom f i → (Presents i s (.failure 2#2) ↔ tooLong) := fun i hi =>
    (presents_failure_iff hi s (e := .encodingOutOfBounds) (by decide)).trans hphase
  refine ⟨hphase, ?buffer, ?source, fun r b hbusy hshift hcont => ?step⟩
  case buffer =>
    rintro buf rfl
    exact ⟨hpresents _ (.decode buf), hpresents _ (.decodeStrict buf)⟩
  case source =>
    rintro src rfl
    refine ⟨hpresents _ (.decodeReader src), fun hlong => ?_⟩
    rw [decodeEnd_source_requests, requestsMade_of_outOfBounds (hclass.mpr hlong)]
  case step =>
    rw [getLsbD_seven_true] at hcont
    rw [byteStep_byte hbusy, hshift]
    simp [hcont]

/-! ### TrailingData -/

/-- DECODE_STRICT presents TrailingData exactly when an accepted encoding stands in front of further bytes (R110). -/
theorem presents_strict_trailing_iff (buf : List Byte) (s : State) :
    Presents (.decodeStrict buf) s (.failure 3#2) ↔ ∃ length, classify buf = .accepted length ∧ length < buf.length := by
  have hp := presents_decodeStrict buf s
  constructor
  · intro h
    have ho := presents_unique hp h
    cases hc : classify buf with
    | accepted length =>
      simp only [hc] at ho
      split at ho
      · exact ⟨length, rfl, ‹_›⟩
      · simp at ho
    | outOfBounds => simp [hc] at ho
    | incomplete => simp [hc] at ho
  · rintro ⟨length, hc, hlt⟩
    simpa only [hc, if_pos hlt] using hp

/-- CONSUMED, a port of two bits, holds the length of an accepted encoding (R70). -/
theorem accepted_length_toNat {buf : List Byte} {length : Nat} (h : classify buf = .accepted length) :
    (BitVec.ofNat 2 length).toNat = length := by
  obtain ⟨-, hthree, -⟩ := accepted_bounds h
  rw [BitVec.toNat_ofNat]
  omega

theorem status_ne_trailing_of_not_strict {i : Instr} {s : State} {o : Outputs}
    (hi : ∀ buf, i ≠ .decodeStrict buf) (h : Presents i s o) : o.status ≠ 3#2 := by
  cases i with
  | encode v =>
    rw [presents_unique h (presents_encode v s)]
    simp
  | decode buf =>
    rw [presents_unique h (presents_decode buf s)]
    split <;> simp
  | decodeReader src =>
    rw [presents_unique h (presents_decodeReader src s)]
    split <;> simp
  | decodeStrict buf => exact absurd rfl (hi buf)

/-- Settles O38: both sides say that the class of the buffer is an accepted length below that of the buffer. -/
theorem trailingDataOnlyFromStrictDecode : Obligations.TrailingDataOnlyFromStrictDecode := by
  unfold Obligations.TrailingDataOnlyFromStrictDecode
  refine ⟨fun s buf => ?_, fun s i o => status_ne_trailing_of_not_strict⟩
  rw [presents_strict_trailing_iff]
  constructor
  · rintro ⟨length, hc, hlt⟩
    have hn := accepted_length_toNat hc
    exact ⟨_, _, presents_decode_accepted hc, hn.symm ▸ hlt⟩
  · rintro ⟨v, c, hdecode, hlt⟩
    obtain ⟨hc, -⟩ := presents_decode_ok hdecode
    exact ⟨c.toNat, hc, hlt⟩

end Machine

end Sys2Proof

/-! What a result depends on (R171): an operation presents the same outputs in any two states in which the source it binds
has the same answers to give. -/

namespace Sys2Proof.Machine

/-- ENCODE, DECODE and DECODE_STRICT present a function of their operand, DECODE_READER a function of the answers to come. -/
theorem presents_same_of_answers_eq {i : Instr} {s1 s2 : State}
    (hanswers : ∀ src, i = .decodeReader src → (sourceAt s1.sources src).answers = (sourceAt s2.sources src).answers) :
    ∃ o, Presents i s1 o ∧ Presents i s2 o := by
  cases i with
  | encode v => exact ⟨_, presents_encode v s1, presents_encode v s2⟩
  | decode buf => exact ⟨_, presents_decode buf s1, presents_decode buf s2⟩
  | decodeReader src =>
    have h2 := presents_decodeReader src s2
    rw [← hanswers src rfl] at h2
    exact ⟨_, presents_decodeReader src s1, h2⟩
  | decodeStrict buf => exact ⟨_, presents_decodeStrict buf s1, presents_decodeStrict buf s2⟩

/-- Settles O27: a transaction starts from the registers R171 names, and what it presents is the same from both states. -/
theorem resultDependsOnOperandsAlone : Obligations.ResultDependsOnOperandsAlone := by
  unfold Obligations.ResultDependsOnOperandsAlone
  refine ⟨beginDecode_dec, fun v s => beginEncode_enc s v, fun i s1 s2 hanswers => ?results⟩
  case results =>
    obtain ⟨o, ⟨t1, hexec1, ho1⟩, ⟨t2, hexec2, ho2⟩⟩ := presents_same_of_answers_eq hanswers
    exact ⟨t1, t2, hexec1, hexec2, ho1.trans ho2.symm⟩

end Sys2Proof.Machine

/-! Encodings that stand at the front of more bytes: what each decode operation makes of its class in one state, first in
general (R104, R107, R110), then for the canonical encoding of a value (R112). -/

namespace Sys2Proof

theorem classify_canonicalForm_append (v : Value) (more : List Byte) :
    classify (canonicalForm v ++ more) = .accepted (canonicalForm v).length := by
  rw [Machine.canonicalForm_length]
  exact (classify_canonicalForm v more).1

theorem wireValue_canonicalForm (v : Value) : wireValue (canonicalForm v) = v.toNat :=
  (classify_canonicalForm v []).2

/-- An accepted encoding, cut off what follows it, is accepted as a whole (R67). -/
theorem classify_take {buf : List Byte} {length : Nat} (h : classify buf = .accepted length) :
    classify (buf.take length) = .accepted (buf.take length).length := by
  obtain ⟨-, -, hle⟩ := accepted_bounds h
  have hfront := classify_front h []
  rw [List.append_nil] at hfront
  rw [hfront, List.length_take, Nat.min_eq_left hle]

namespace Machine

section
variable {buf : List Byte} {s : State}

theorem presents_strict_whole (h : classify buf = .accepted buf.length) :
    Presents (.decodeStrict buf) s (.valueOnly (wireValue buf)) := by
  have hp := presents_decodeStrict buf s
  simpa only [h, Nat.lt_irrefl, if_false, List.take_length] using hp

theorem presents_strict_outOfBounds (h : classify buf = .outOfBounds) :
    Presents (.decodeStrict buf) s (.failure 2#2) := by
  simpa only [h] using presents_decodeStrict buf s

theorem presents_strict_incomplete (h : classify buf = .incomplete) :
    Presents (.decodeStrict buf) s (.failure 1#2) := by
  simpa only [h] using presents_decodeStrict buf s

end

/-! ### COUNT and the requests at the end of the loop, by class -/

theorem endRegs_count_of_accepted {bs : List Byte} {length : Nat} (h : classify bs = .accepted length) :
    (endRegs bs).count.toNat = length := by
  have hcls := endRegs_of_class bs
  rw [h] at hcls
  obtain ⟨-, hcount, -⟩ := hcls
  rw [hcount, accepted_length_toNat h]

theorem endRegs_count_of_outOfBounds {bs : List Byte} (h : classify bs = .outOfBounds) :
    (endRegs bs).count.toNat = 3 := by
  have hcls := endRegs_of_class bs
  rw [h] at hcls
  obtain ⟨-, hcount, -⟩ := hcls
  rw [hcount]
  rfl

theorem endRegs_count_of_incomplete {bs : List Byte} (h : classify bs = .incomplete) :
    (endRegs bs).count.toNat = bs.length := by
  have hcls := endRegs_of_class bs
  rw [h] at hcls
  obtain ⟨-, hcount, -, hlen⟩ := hcls
  rw [hcount, BitVec.toNat_ofNat]
  omega

theorem requestsMade_of_accepted {bs : List Byte} {length : Nat} (h : classify bs = .accepted length) :
    requestsMade 3 bs DecoderRegs.start = length := by
  have hcls := endRegs_of_class bs
  rw [h] at hcls
  obtain ⟨-, -, -, hreq, -⟩ := hcls
  exact hreq

theorem requestsMade_of_incomplete {bs : List Byte} (h : classify bs = .incomplete) :
    requestsMade 3 bs DecoderRegs.start = bs.length + 1 := by
  have hcls := endRegs_of_class bs
  rw [h] at hcls
  obtain ⟨-, -, hreq, -⟩ := hcls
  exact hreq

/-! ### DECODE_READER by class, with its source -/

/-- The bound source after DECODE_READER: it has seen the requests of the loop, and COUNT of them gave a byte (R108). -/
theorem exec_decodeReader_sourceAt (src : Nat) (s : State) :
    let x := sourceAt s.sources src
    let front := deliverable x.answers
    ∃ t, exec (.decodeReader src) s = .next t ∧
      sourceAt t.sources src = x.after (requestsMade 3 front DecoderRegs.start) (endRegs front).count.toNat := by
  intro x front
  obtain ⟨t, hexec, -, -, hsources, -⟩ := exec_decodeReader_next src s
  obtain ⟨hone, -⟩ := requestsMade_bounds front
  refine ⟨t, hexec, ?_⟩
  rw [hsources, sourceAt_put_same (after_ne_empty _ hone _)]

section
variable {src : Nat} {s : State}

/-- The whole answer of DECODE_READER from what it presents, the requests of its loop and its final COUNT. -/
theorem exec_decodeReader_counts {o : Outputs} {n p : Nat} (ho : Presents (.decodeReader src) s o)
    (hreq : requestsMade 3 (deliverable (sourceAt s.sources src).answers) DecoderRegs.start = n)
    (hcount : (endRegs (deliverable (sourceAt s.sources src).answers)).count.toNat = p) :
    ∃ t, exec (.decodeReader src) s = .next t ∧ t.outputs = some o ∧
      sourceAt t.sources src = (sourceAt s.sources src).after n p := by
  obtain ⟨t, hexec, hsource⟩ := exec_decodeReader_sourceAt src s
  rw [hreq, hcount] at hsource
  exact ⟨t, hexec, (presents_of_exec hexec o).mp ho, hsource⟩

theorem exec_decodeReader_accepted {length : Nat}
    (h : classify (deliverable (sourceAt s.sources src).answers) = .accepted length) :
    ∃ t, exec (.decodeReader src) s = .next t ∧
      t.outputs = some (.valueOnly (wireValue ((deliverable (sourceAt s.sources src).answers).take length))) ∧
      sourceAt t.sources src = (sourceAt s.sources src).after length length := by
  have ho := presents_decodeReader src s
  rw [h] at ho
  exact exec_decodeReader_counts ho (requestsMade_of_accepted h) (endRegs_count_of_accepted h)

theorem exec_decodeReader_outOfBounds
    (h : classify (deliverable (sourceAt s.sources src).answers) = .outOfBounds) :
    ∃ t, exec (.decodeReader src) s = .next t ∧ t.outputs = some (.failure 2#2) ∧
      sourceAt t.sources src = (sourceAt s.sources src).after 3 3 := by
  have ho := presents_decodeReader src s
  rw [h] at ho
  exact exec_decodeReader_counts ho (requestsMade_of_outOfBounds h) (endRegs_count_of_outOfBounds h)

theorem exec_decodeReader_incomplete
    (h : classify (deliverable (sourceAt s.sources src).answers) = .incomplete) :
    ∃ t, exec (.decodeReader src) s = .next t ∧ t.outputs = some (.failure 1#2) ∧
      sourceAt t.sources src = (sourceAt s.sources src).after
        ((deliverable (sourceAt s.sources src).answers).length + 1)
        (deliverable (sourceAt s.sources src).answers).length := by
  have ho := presents_decodeReader src s
  rw [h] at ho
  exact exec_decodeReader_counts ho (requestsMade_of_incomplete h) (endRegs_count_of_incomplete h)

end

/-! ### The canonical encoding at the front -/

theorem Outputs.decoded_toNat (v : Value) (length : Nat) :
    Outputs.decoded v.toNat length = ⟨0#2, none, none, some v, some (BitVec.ofNat 2 length)⟩ := by
  simp [Outputs.decoded]

theorem Outputs.valueOnly_toNat (v : Value) : Outputs.valueOnly v.toNat = ⟨0#2, none, none, some v, none⟩ := by
  simp [Outputs.valueOnly]

theorem presents_decode_canonicalForm (v : Value) (more : List Byte) (s : State) :
    Presents (.decode (canonicalForm v ++ more)) s
      ⟨0#2, none, none, some v, some (BitVec.ofNat 2 (canonicalForm v).length)⟩ := by
  have hp := presents_decode_accepted (s := s) (classify_canonicalForm_append v more)
  rwa [List.take_left, wireValue_canonicalForm, Outputs.decoded_toNat] at hp

theorem presents_strict_canonicalForm (v : Value) (s : State) :
    Presents (.decodeStrict (canonicalForm v)) s ⟨0#2, none, none, some v, none⟩ := by
  have hclass := classify_canonicalForm_append v []
  rw [List.append_nil] at hclass
  have hp := presents_strict_whole (s := s) hclass
  rwa [wireValue_canonicalForm, Outputs.valueOnly_toNat] at hp

/-- A source that yields a canonical encoding gives its value, and is left at the answers that follow it. -/
theorem exec_decodeReader_canonicalForm {v : Value} {src : Nat} {s : State} {rest : List Answer}
    (h : (sourceAt s.sources src).answers = (canonicalForm v).map .byte ++ rest) :
    ∃ t, exec (.decodeReader src) s = .next t ∧ t.outputs = some ⟨0#2, none, none, some v, none⟩ ∧
      (sourceAt t.sources src).position = (sourceAt s.sources src).position + (canonicalForm v).length ∧
      (sourceAt t.sources src).answers = rest := by
  have hfront : deliverable (sourceAt s.sources src).answers = canonicalForm v ++ deliverable rest := by
    rw [h, deliverable_map_byte]
  obtain ⟨t, hexec, houtputs, hsource⟩ :=
    exec_decodeReader_accepted (hfront ▸ classify_canonicalForm_append v (deliverable rest))
  rw [hfront, List.take_left, wireValue_canonicalForm, Outputs.valueOnly_toNat] at houtputs
  refine ⟨t, hexec, houtputs, ?_, ?_⟩
  · rw [hsource]
    rfl
  · rw [hsource, Source.after, h]
    exact List.drop_left' (List.length_map ..)

/-- Settles O45: ENCODE presents the canonical encoding, and each decode operation gives its value back. -/
theorem decodeInvertsEncode : Obligations.DecodeInvertsEncode := by
  unfold Obligations.DecodeInvertsEncode
  refine fun v s => ⟨canonicalForm v, presents_encode v s, fun s' => ?decode, presents_strict_canonicalForm v,
    fun s' src rest => exec_decodeReader_canonicalForm⟩
  case decode => simpa using presents_decode_canonicalForm v [] s'

/-- Settles O47: the first decode stops where the second encoding begins, in the buffer and in the source. -/
theorem successiveValuesDecodeInOrder : Obligations.SuccessiveValuesDecodeInOrder := by
  unfold Obligations.SuccessiveValuesDecodeInOrder
  refine ⟨fun v w rest s s' => ?buffer, fun v w rest src s h => ?source⟩
  case buffer =>
    have hdrop (u : Value) (more : List Byte) :
        (canonicalForm u ++ more).drop (BitVec.ofNat 2 (canonicalForm u).length).toNat = more := by
      rw [accepted_length_toNat (classify_canonicalForm_append u more), List.drop_left]
    refine ⟨_, presents_decode_canonicalForm v _ s, ?_⟩
    rw [hdrop]
    exact ⟨_, presents_decode_canonicalForm w rest s', hdrop w rest⟩
  case source =>
    rw [List.map_append, List.append_assoc] at h
    obtain ⟨t, hfirst, hv, -, hleft⟩ := exec_decodeReader_canonicalForm h
    obtain ⟨u, hsecond, hw, -, hrest⟩ := exec_decodeReader_canonicalForm hleft
    exact ⟨t, u, hfirst, hv, hsecond, hw, hrest⟩

end Machine

end Sys2Proof

/-! What each operation presents and leaves, assembled from its class: the decode operations by R67 (R104 to R111), the outputs
that the tables of R70 and R144 allow, and the frames of R30. -/

namespace Sys2Proof.Machine

/-- Settles O28: one clause per class of the buffer. -/
theorem decodeFollowsTheWireClasses : Obligations.DecodeFollowsTheWireClasses := by
  unfold Obligations.DecodeFollowsTheWireClasses
  exact fun buf s =>
    ⟨fun length => presents_decode_accepted, presents_decode_outOfBounds, presents_decode_incomplete⟩

/-- Settles O34: the accepted class splits by whether the encoding fills the buffer. -/
theorem strictDecodeFollowsTheWireClasses : Obligations.StrictDecodeFollowsTheWireClasses := by
  unfold Obligations.StrictDecodeFollowsTheWireClasses
  refine fun buf s => ⟨presents_strict_whole, fun length hclass hlt => ?trailing, presents_strict_outOfBounds,
    presents_strict_incomplete⟩
  case trailing => exact (presents_strict_trailing_iff buf s).mpr ⟨length, hclass, hlt⟩

/-- Settles O32: one clause per class of the bytes that the source will deliver. -/
theorem decodeReaderFollowsTheWireClasses : Obligations.DecodeReaderFollowsTheWireClasses := by
  unfold Obligations.DecodeReaderFollowsTheWireClasses
  exact fun src s =>
    ⟨fun length => exec_decodeReader_accepted, exec_decodeReader_outOfBounds, exec_decodeReader_incomplete⟩

/-- Settles O33: both operations present by the class of the same bytes, and both loops end with the registers of those bytes. -/
theorem readerAgreesWithBuffer : Obligations.ReaderAgreesWithBuffer := by
  unfold Obligations.ReaderAgreesWithBuffer
  intro src s buf
  obtain ⟨t, hreader, hsource⟩ := exec_decodeReader_sourceAt src s
  obtain ⟨u, hdecode, hu⟩ := presents_decode buf s
  have ht := (presents_of_exec hreader _).mp (presents_decodeReader src s)
  refine ⟨t, u, _, _, hreader, hdecode, ht, hu, ?status, ?value, ?advance⟩
  case status => cases classify buf <;> rfl
  case value => cases classify buf <;> rfl
  case advance =>
    rw [hsource, decodeEnd_dec]
    rfl

/-- Settles O31: on an accepted class each decode operation presents STATUS OK; DECODE_STRICT gets the encoding alone. -/
theorem paddedEncodingsAreAccepted : Obligations.PaddedEncodingsAreAccepted := by
  unfold Obligations.PaddedEncodingsAreAccepted
  refine fun s buf length hclass => ⟨?decode, ?strict, fun src hfront => ?reader⟩
  case decode =>
    obtain ⟨t, hexec, ho⟩ := presents_decode_accepted (s := s) hclass
    exact ⟨t, _, hexec, ho, rfl⟩
  case strict =>
    obtain ⟨t, hexec, ho⟩ := presents_strict_whole (s := s) (classify_take hclass)
    exact ⟨t, _, hexec, ho, rfl⟩
  case reader =>
    obtain ⟨t, hexec, ho, -⟩ := exec_decodeReader_accepted (hfront ▸ hclass)
    exact ⟨t, _, hexec, ho, rfl⟩

/-! ### A third byte -/

/-- The three groups of a value that DECODE puts together, read back from it (R64). -/
theorem groups_of_three_bytes {b0 b1 b2 : Byte} {v : Value} (h : v.toNat = wireValue [b0, b1, b2]) :
    v.extractLsb' 14 2 = b2.extractLsb' 0 2 ∧ v.extractLsb' 7 7 = b1.extractLsb' 0 7 ∧
      v.extractLsb' 0 7 = b0.extractLsb' 0 7 := by
  simp only [wireValue] at h
  refine ⟨?_, ?_, ?_⟩ <;> apply BitVec.eq_of_toNat_eq <;>
    simp only [BitVec.extractLsb'_toNat, Nat.shiftRight_eq_div_pow] <;> omega

/-- Settles O30: the value that DECODE presents for three bytes has no place for the third byte's bits 6:2. -/
theorem thirdByteGivesTwoBits : Obligations.ThirdByteGivesTwoBits := by
  unfold Obligations.ThirdByteGivesTwoBits
  intro s b0 b1 b2 rest h0 h1 h2
  rw [getLsbD_seven_true] at h0 h1
  rw [getLsbD_seven_false] at h2
  refine ⟨_, presents_decode_accepted (classify_three h0 h1 h2 rest), groups_of_three_bytes ?_⟩
  simp only [List.take_succ_cons, List.take_zero, wireValue, BitVec.toNat_ofNat]
  omega

/-! ### Bytes past the value -/

theorem presents_iff {i : Instr} {s : State} {o p : Outputs} (h : Presents i s p) : Presents i s o ↔ o = p :=
  ⟨fun h' => presents_unique h' h, fun heq => heq ▸ h⟩

/-- Inputs with the same three bytes in front are of one class, and an accepted encoding is among those bytes (R42). -/
theorem accepted_front_congr {a b : List Byte} (h : a.take 3 = b.take 3) {length : Nat}
    (ha : classify a = .accepted length) : a.take length = b.take length := by
  obtain ⟨-, hle, -⟩ := accepted_bounds ha
  have htake := congrArg (·.take length) h
  simpa only [List.take_take, Nat.min_eq_left hle] using htake

/-- DECODE presents the same for two buffers with the same three bytes in front. -/
theorem presents_decode_congr {a b : List Byte} (h : a.take 3 = b.take 3) (s : State) (o : Outputs) :
    Presents (.decode a) s o ↔ Presents (.decode b) s o := by
  rw [presents_iff (presents_decode a s), presents_iff (presents_decode b s), ← classify_congr h]
  cases hclass : classify a with
  | accepted length => simp only [accepted_front_congr h hclass]
  | outOfBounds => rfl
  | incomplete => rfl

/-- DECODE_STRICT, which asks whether bytes remain, needs buffers of one length as well. -/
theorem presents_strict_congr {a b : List Byte} (h : a.take 3 = b.take 3) (hlen : a.length = b.length) (s : State)
    (o : Outputs) : Presents (.decodeStrict a) s o ↔ Presents (.decodeStrict b) s o := by
  rw [presents_iff (presents_decodeStrict a s), presents_iff (presents_decodeStrict b s), ← classify_congr h]
  cases hclass : classify a with
  | accepted length => simp only [accepted_front_congr h hclass, hlen]
  | outOfBounds => rfl
  | incomplete => rfl

/-- Settles O35: a successful DECODE depends on the bytes it consumed, and any decode on the first three. -/
theorem bytesPastTheValueAreNotRead : Obligations.BytesPastTheValueAreNotRead := by
  unfold Obligations.BytesPastTheValueAreNotRead
  refine ⟨fun s buf more v c h => ?_, fun s a b o h => presents_decode_congr h s o,
    fun s a b o h hlen => presents_strict_congr h hlen s o⟩
  obtain ⟨hclass, rfl⟩ := presents_decode_ok h
  obtain ⟨-, -, hle⟩ := accepted_bounds hclass
  have hp := presents_decode_accepted (s := s) (classify_front hclass more)
  rw [List.take_left' (List.length_take_of_le hle)] at hp
  simpa only [Outputs.decoded, BitVec.ofNat_toNat, BitVec.setWidth_eq] using hp

/-! ### Legal outputs -/

theorem legal_failure {status : BitVec 2} (h : status ≠ 0#2) : (Outputs.failure status).Legal := by
  simp [Outputs.Legal, h]

theorem legal_valueOnly (value : Nat) : (Outputs.valueOnly value).Legal := by
  simp [Outputs.Legal]

theorem legal_decoded (value : Nat) {length : Nat} (hpos : 1 ≤ (BitVec.ofNat 2 length).toNat) :
    (Outputs.decoded value length).Legal := by
  simp only [Outputs.Legal]
  refine ⟨by simp, by simp, by simp, ?consumed, by simp⟩
  case consumed =>
    rintro c ⟨⟩
    exact ⟨rfl, hpos⟩

theorem legal_encoded {bytes : List Byte} (hclass : classify bytes = .accepted bytes.length) :
    (Outputs.encoded bytes).Legal := by
  obtain ⟨hone, hthree, -⟩ := accepted_bounds hclass
  simp only [Outputs.Legal]
  refine ⟨by simp, by simp, by simp, by simp, ?bytes⟩
  case bytes =>
    rintro bs ⟨⟩
    exact ⟨hone, hthree, rfl, hclass⟩

/-- R70, R144: whatever an operation presents is legal. -/
theorem presents_legal {i : Instr} {s : State} {o : Outputs} (h : Presents i s o) : o.Legal := by
  have hfailed : (Outputs.failure 1#2).Legal ∧ (Outputs.failure 2#2).Legal ∧ (Outputs.failure 3#2).Legal :=
    ⟨legal_failure (by decide), legal_failure (by decide), legal_failure (by decide)⟩
  obtain ⟨hends, hlong, htrailing⟩ := hfailed
  cases i with
  | encode v =>
    rw [presents_unique h (presents_encode v s)]
    have hclass := classify_canonicalForm_append v []
    exact legal_encoded (by rwa [List.append_nil] at hclass)
  | decode buf =>
    rw [presents_unique h (presents_decode buf s)]
    cases hclass : classify buf with
    | accepted length =>
      obtain ⟨hone, -⟩ := accepted_bounds hclass
      exact legal_decoded _ (by rwa [accepted_length_toNat hclass])
    | outOfBounds => exact hlong
    | incomplete => exact hends
  | decodeReader src =>
    rw [presents_unique h (presents_decodeReader src s)]
    split
    · exact legal_valueOnly _
    · exact hlong
    · exact hends
  | decodeStrict buf =>
    rw [presents_unique h (presents_decodeStrict buf s)]
    split
    · split
      · exact htrailing
      · exact legal_valueOnly _
    · exact hlong
    · exact hends

/-- Settles O39: legal outputs, and for each operation the optional outputs of its row. -/
theorem outputsArePresentedByTheTable : Obligations.OutputsArePresentedByTheTable := by
  unfold Obligations.OutputsArePresentedByTheTable
  intro i s t o hexec houtputs
  have hp : Presents i s o := ⟨t, hexec, houtputs⟩
  refine ⟨presents_legal hp, ?encode, ?decode, ?reader, ?strict⟩
  case encode =>
    rintro v rfl
    rw [presents_unique hp (presents_encode v s)]
    rfl
  case decode =>
    rintro buf rfl
    rw [presents_unique hp (presents_decode buf s)]
    split <;> simp
  case reader =>
    rintro src rfl
    rw [presents_unique hp (presents_decodeReader src s)]
    split <;> simp
  case strict =>
    rintro buf rfl
    rw [presents_unique hp (presents_decodeStrict buf s)]
    split
    · split <;> simp
    · simp
    · simp

/-! ### Frames -/

/-- Settles O16: ENCODE's law without its bound on OUT. -/
theorem encodeClosedForm : Obligations.EncodeClosedForm := by
  unfold Obligations.EncodeClosedForm
  intro v s
  obtain ⟨t, hexec, houtputs, hsources, hinputs, -⟩ := exec_encode_spec v s
  exact ⟨t, hexec, houtputs, hsources, hinputs⟩

/-- Settles O41: each of the three operations that bind no source, by its own law. -/
theorem bufferOperationsLeaveTheSources : Obligations.BufferOperationsLeaveTheSources := by
  unfold Obligations.BufferOperationsLeaveTheSources
  intro i s hi
  cases i with
  | encode v =>
    obtain ⟨t, hexec, -, hframe⟩ := exec_encode_spec v s
    exact ⟨t, hexec, hframe⟩
  | decode buf =>
    obtain ⟨t, hexec, hinputs, hout, hsources, -⟩ := exec_decode_next buf s
    exact ⟨t, hexec, hsources, hinputs, hout⟩
  | decodeReader src => exact absurd rfl (hi src)
  | decodeStrict buf =>
    obtain ⟨t, hexec, hinputs, hout, hsources, -⟩ := exec_decodeStrict_next buf s
    exact ⟨t, hexec, hsources, hinputs, hout⟩

/-- COUNT at the end of a decode transaction is the number of bytes that its requests got (R23, R108). -/
theorem endRegs_count (bs : List Byte) :
    (endRegs bs).count.toNat = (bs.take (requestsMade 3 bs DecoderRegs.start)).length := by
  have hcount := regsAfter_count 3 bs DecoderRegs.start (Nat.le_refl 3)
  exact hcount.trans (Nat.zero_add _)

/-- Settles O42: the table changes at the bound name alone, and COUNT counts the bytes among the answers taken. -/
theorem readerTouchesOnlyItsSource : Obligations.ReaderTouchesOnlyItsSource := by
  unfold Obligations.ReaderTouchesOnlyItsSource
  intro src s t hexec
  obtain ⟨t', hexec', hinputs, hout, hsources, -⟩ := exec_decodeReader_next src s
  obtain rfl : t = t' := Host.Outcome.next.inj (hexec.symm.trans hexec')
  obtain ⟨hone, hthree⟩ := requestsMade_bounds (deliverable (sourceAt s.sources src).answers)
  refine ⟨hinputs, hout, fun other hother => ?others, _, hone, hthree, ?bound⟩
  case others => rw [hsources, sourceAt_put_other _ hother]
  case bound =>
    rw [hsources, sourceAt_put_same (after_ne_empty _ hone _), deliverable_take, ← endRegs_count]
    exact ⟨rfl, rfl, rfl⟩

end Sys2Proof.Machine

/-! The command format (R70, R71) and the step (R48): the queue, the duties of the caller, resets between and inside
transactions, and the invariant that every step keeps. -/

namespace Sys2Proof.Machine

/-! ### The command format -/

/-- Settles O1: the selector table for every content of the ports, and its four words. -/
theorem selectorTableIsTotal : Obligations.SelectorTableIsTotal := by
  unfold Obligations.SelectorTableIsTotal
  exact ⟨fun _ _ _ => ⟨rfl, rfl, rfl, rfl⟩, rfl, rfl, rfl, rfl⟩

/-- Settles O2: one law per operation. -/
theorem encodedCommandDecodesBack : Obligations.EncodedCommandDecodesBack := by
  unfold Obligations.EncodedCommandDecodesBack
  intro i
  cases i with
  | encode v => exact Laws.EncodeDecode.encode v
  | decode buf => exact Laws.EncodeDecode.decode buf
  | decodeReader src => exact Laws.EncodeDecode.decodeReader src
  | decodeStrict buf => exact Laws.EncodeDecode.decodeStrict buf

/-- The four selectors (R71). -/
theorem selector_cases (op : BitVec 2) : op = 0b00#2 ∨ op = 0b01#2 ∨ op = 0b10#2 ∨ op = 0b11#2 := by
  revert op
  decide

/-- Settles O3: by selector; a port that the selected operation does not read is at rest by hypothesis. -/
theorem decodedCommandEncodesBack : Obligations.DecodedCommandEncodesBack := by
  unfold Obligations.DecodedCommandEncodesBack
  rintro ⟨op, valueIn, buf, src⟩ ⟨hvalue, hbuf, hsrc⟩
  rcases selector_cases op with rfl | rfl | rfl | rfl
  · obtain rfl : buf = [] := hbuf (.inl rfl)
    obtain rfl : src = 0 := hsrc (by simp)
    rfl
  · obtain rfl : valueIn = 0#16 := hvalue (by simp)
    obtain rfl : src = 0 := hsrc (by simp)
    rfl
  · obtain rfl : valueIn = 0#16 := hvalue (by simp)
    obtain rfl : buf = [] := hbuf (.inr rfl)
    rfl
  · obtain rfl : valueIn = 0#16 := hvalue (by simp)
    obtain rfl : src = 0 := hsrc (by simp)
    rfl

/-! ### One step, by the oldest input -/

theorem step_idle {s : State} (h : s.inputs = []) : step s = .next (idle s) := by
  simp only [step, h]

theorem step_reset {s : State} {rest : List Input} (h : s.inputs = .reset :: rest) :
    step s = .next (resetBlock { s with inputs := rest }) := by
  simp only [step, h]

theorem step_command {s : State} {c : Command} {w : Conduct} {rest : List Input}
    (h : s.inputs = .command c w :: rest) : step s = perform w (decode c) { s with inputs := rest } := by
  simp only [step, h]

theorem perform_refused {w : Conduct} {i : Instr} {r : Refusal} (h : brokenDuty w i = some r) (s : State) :
    perform w i s = .refused r := by
  simp only [perform, h]

theorem perform_exec {w : Conduct} {i : Instr} (hduty : brokenDuty w i = none) (hreset : w.resetAfter = none)
    (s : State) : perform w i s = exec i s := by
  simp only [perform, hduty, hreset]

theorem perform_abandon {w : Conduct} {i : Instr} {k : Nat} (hduty : brokenDuty w i = none)
    (hreset : w.resetAfter = some k) (s : State) : perform w i s = .next (abandon k s i) := by
  simp only [perform, hduty, hreset]

/-- A caller that keeps its duties gets a next state, whether a reset comes or not. -/
theorem perform_next {w : Conduct} {i : Instr} (h : brokenDuty w i = none) (s : State) :
    ∃ t, perform w i s = .next t := by
  cases hreset : w.resetAfter with
  | some k => exact ⟨_, perform_abandon h hreset s⟩
  | none =>
    obtain ⟨t, -, hexec, -⟩ := exec_next i s
    exact ⟨t, (perform_exec h hreset s).trans hexec⟩

theorem brokenDuty_dutiful (i : Instr) : brokenDuty Conduct.dutiful i = none := by
  cases i <;> rfl

/-- What a step answers (R48, R174, R176): the refusal of the duty that the next command's caller breaks, else a next state. -/
theorem step_answers (s : State) :
    (∃ c w rest r, s.inputs = .command c w :: rest ∧ brokenDuty w (decode c) = some r ∧ step s = .refused r) ∨
    (DutyKept s ∧ ∃ t, step s = .next t) := by
  rcases hinputs : s.inputs with _ | ⟨_ | _, rest⟩
  case nil => exact .inr ⟨fun _ _ _ h => by simp [hinputs] at h, _, step_idle hinputs⟩
  case cons.reset => exact .inr ⟨fun _ _ _ h => by simp [hinputs] at h, _, step_reset hinputs⟩
  case cons.command c w =>
    cases hduty : brokenDuty w (decode c) with
    | some r => exact .inl ⟨c, w, rest, r, rfl, hduty, (step_command hinputs).trans (perform_refused hduty _)⟩
    | none =>
      refine .inr ⟨fun c' w' rest' h => ?_, ?_⟩
      · rw [hinputs] at h
        cases h
        exact hduty
      · rw [step_command hinputs]
        exact perform_next hduty _

/-- Settles O4: the oldest command is performed, and performing it is exec. -/
theorem stepPerformsTheIssuedCommand : Obligations.StepPerformsTheIssuedCommand := by
  unfold Obligations.StepPerformsTheIssuedCommand
  intro s c w rest hinputs hduty hreset
  rw [step_command hinputs, perform_exec hduty hreset]

/-- Settles O5: the word's command is issued ahead of all others by a dutiful caller. -/
theorem fetchedTableWordRunsItsOperation : Obligations.FetchedTableWordRunsItsOperation := by
  unfold Obligations.FetchedTableWordRunsItsOperation
  intro s nbits w i h
  unfold decodeTableWord at h
  cases hword : commandOfBytes (bytesOfWord nbits w) with
  | error e => simp [hword] at h
  | ok c =>
    obtain rfl : decode c = i := by simpa [hword] using h
    have hinputs : (s.withFetchWord nbits w).inputs = .command c Conduct.dutiful :: s.inputs := by
      simp only [State.withFetchWord, hword]
    rw [step_command hinputs, perform_exec (brokenDuty_dutiful _) rfl]
    simp only [State.withFetchWord, hword]

/-- Settles O7: the idle step and the reset between transactions leave the caller's side. -/
theorem idleAndResetPresentNothing : Obligations.IdleAndResetPresentNothing := by
  unfold Obligations.IdleAndResetPresentNothing
  exact ⟨fun s h => ⟨_, step_idle h, idle_outputs s, idle_sources s, h⟩,
    fun s rest h => ⟨_, step_reset h, resetBlock_outputs _, resetBlock_sources _, resetBlock_inputs _⟩⟩

/-- Settles O8: the reset state's own fields. -/
theorem resetLeavesTheBlockIdle : Obligations.ResetLeavesTheBlockIdle := by
  unfold Obligations.ResetLeavesTheBlockIdle
  exact ⟨rfl, rfl, fun _ => rfl⟩

/-- Settles O10: exec presents outputs for every operation. -/
theorem everyOperationEndsWithAStatus : Obligations.EveryOperationEndsWithAStatus := by
  unfold Obligations.EveryOperationEndsWithAStatus
  intro i s
  obtain ⟨t, o, hexec, houtputs, -⟩ := exec_next i s
  exact ⟨o, t, hexec, houtputs⟩

/-- Settles O9: the command is performed by exec, which presents outputs and takes nothing from the queue. -/
theorem firstCommandRunsStraightAfterReset : Obligations.FirstCommandRunsStraightAfterReset := by
  unfold Obligations.FirstCommandRunsStraightAfterReset
  intro c rest
  obtain ⟨t, o, hexec, houtputs, hinputs, -⟩ := exec_next (decode c) { State.reset with inputs := rest }
  exact ⟨t, o, (perform_exec (brokenDuty_dutiful _) rfl _).trans hexec, houtputs, hinputs⟩

/-- Settles O11: the two answers of a step exclude each other, and which of them it gives is told by the duty. -/
theorem stepStopsOnlyOnABrokenDuty : Obligations.StepStopsOnlyOnABrokenDuty := by
  unfold Obligations.StepStopsOnlyOnABrokenDuty
  refine ⟨fun _ f => (nomatch f), fun s r => ⟨fun h => ?refused, ?broken⟩, fun s hkept => ?kept⟩
  case refused =>
    rcases step_answers s with ⟨c, w, rest, r', hinputs, hduty, hstep⟩ | ⟨-, t, hstep⟩
    · obtain rfl : r = r' := Host.Outcome.refused.inj (h.symm.trans hstep)
      exact ⟨c, w, rest, hinputs, hduty⟩
    · exact nomatch h.symm.trans hstep
  case broken =>
    rintro ⟨c, w, rest, hinputs, hduty⟩
    rw [step_command hinputs, perform_refused hduty]
  case kept =>
    rcases step_answers s with ⟨c, w, rest, r, hinputs, hduty, -⟩ | ⟨-, hnext⟩
    · exact nomatch (hkept c w rest hinputs).symm.trans hduty
    · exact hnext

/-- Settles O12: the operand duty binds every operation but DECODE_READER. -/
theorem changedOperandIsRefused : Obligations.ChangedOperandIsRefused := by
  unfold Obligations.ChangedOperandIsRefused
  intro s c w rest hinputs hheld hnot
  have hduty : brokenDuty w (decode c) = some .operandsChanged := by
    cases hi : decode c with
    | decodeReader src => exact absurd hi (hnot src)
    | encode v => simp [brokenDuty, hheld]
    | decode buf => simp [brokenDuty, hheld]
    | decodeStrict buf => simp [brokenDuty, hheld]
  rw [step_command hinputs, perform_refused hduty]

/-- Settles O13: the source duty binds DECODE_READER. -/
theorem sharedSourceIsRefused : Obligations.SharedSourceIsRefused := by
  unfold Obligations.SharedSourceIsRefused
  intro s c w rest src hinputs hi hshared
  have hduty : brokenDuty w (decode c) = some .sourceShared := by
    rw [hi]
    simp [brokenDuty, hshared]
  rw [step_command hinputs, perform_refused hduty]

/-- Settles O40: error entry, field by field. -/
theorem errorEntryPresentsOnlyTheStatus : Obligations.ErrorEntryPresentsOnlyTheStatus := by
  unfold Obligations.ErrorEntryPresentsOnlyTheStatus
  intro e s
  refine ⟨?status, raiseError_sources s e, raiseError_inputs s e⟩
  case status => cases e <;> rfl

/-! ### A transaction abandoned by a reset -/

/-- An abandoned transaction presents nothing, takes nothing from the queue and leaves OUT within its bound. -/
theorem abandon_keeps (k : Nat) (s : State) (i : Instr) :
    (abandon k s i).outputs = none ∧ (abandon k s i).inputs = s.inputs ∧ (abandon k s i).enc.out.length ≤ 3 := by
  cases i with
  | encode v =>
    refine ⟨?_, ?_, retire_out_length _⟩
    · rw [abandon, retire_outputs, encodeRun_outputs, beginEncode_outputs]
    · rw [abandon, retire_inputs, encodeRun_inputs, beginEncode_inputs]
  | decode buf =>
    obtain ⟨r, hrun⟩ := decodeRun_buffer_cut buf k s
    simp only [abandon, hrun]
    exact ⟨rfl, rfl, retire_out_length _⟩
  | decodeReader src =>
    obtain ⟨r, hrun, -⟩ := decodeRun_source_cut src k s
    simp only [abandon, hrun]
    exact ⟨rfl, rfl, retire_out_length _⟩
  | decodeStrict buf =>
    obtain ⟨r, hrun⟩ := decodeRun_buffer_cut buf k s
    simp only [abandon, hrun]
    exact ⟨rfl, rfl, retire_out_length _⟩

theorem abandon_sources_of_not_reader (k : Nat) (s : State) {i : Instr} (hi : ∀ src, i ≠ .decodeReader src) :
    (abandon k s i).sources = s.sources := by
  cases i with
  | encode v => rw [abandon, retire_sources, encodeRun_sources, beginEncode_sources]
  | decode buf =>
    obtain ⟨r, hrun⟩ := decodeRun_buffer_cut buf k s
    rw [abandon, hrun]
    rfl
  | decodeReader src => exact absurd rfl (hi src)
  | decodeStrict buf =>
    obtain ⟨r, hrun⟩ := decodeRun_buffer_cut buf k s
    rw [abandon, hrun]
    rfl

/-- An abandoned DECODE_READER leaves the source table as it was before the first turn, and from then on with the bound source
advanced by the turns made (R172). -/
theorem abandon_reader_sources (k : Nat) (s : State) (src : Nat) :
    let front := available s (.source src)
    let n := min k (requestsMade 3 front DecoderRegs.start)
    (abandon k s (.decodeReader src)).sources =
      if n = 0 then s.sources
      else putSource s.sources src ((sourceAt s.sources src).after n (front.take n).length) := by
  intro front n
  obtain ⟨r, hrun, hcount⟩ := decodeRun_source_cut src k s
  simp only [abandon, hrun, retire_sources, hcount]
  rfl

theorem abandon_reader_sourceAt (k : Nat) (s : State) (src : Nat) :
    let front := available s (.source src)
    let n := min k (requestsMade 3 front DecoderRegs.start)
    sourceAt (abandon k s (.decodeReader src)).sources src =
      (sourceAt s.sources src).after n (front.take n).length := by
  intro front n
  rw [abandon_reader_sources]
  split
  next hzero =>
    have hn : n = 0 := hzero
    rw [hn]
    rfl
  next hpos => exact sourceAt_put_same (after_ne_empty _ (Nat.pos_of_ne_zero hpos) _) _ _

theorem abandon_reader_other (k : Nat) (s : State) {src other : Nat} (h : other ≠ src) :
    sourceAt (abandon k s (.decodeReader src)).sources other = sourceAt s.sources other := by
  rw [abandon_reader_sources]
  split
  · rfl
  · exact sourceAt_put_other _ h _

/-- COUNT after `k` turns over a source is the number of bytes that these turns got. -/
theorem decodeRun_source_count (src k : Nat) (s : State) :
    let front := available s (.source src)
    (decodeRun (.source src) k (beginDecode s)).dec.count.toNat =
      (front.take (min k (requestsMade 3 front DecoderRegs.start))).length := by
  obtain ⟨r, hrun, hcount⟩ := decodeRun_source_cut src k s
  rw [hrun]
  exact hcount

/-- Settles O14: the turns of the loop that were made before the reset are the requests that its source has seen. -/
theorem resetInsideATransactionPresentsNothing : Obligations.ResetInsideATransactionPresentsNothing := by
  unfold Obligations.ResetInsideATransactionPresentsNothing
  intro s c w rest k hinputs hduty hreset
  obtain ⟨houtputs, hqueue, -⟩ := abandon_keeps k { s with inputs := rest } (decode c)
  refine ⟨_, (step_command hinputs).trans (perform_abandon hduty hreset _), houtputs, hqueue, fun src hnot => ?unbound,
    fun src hi => ?bound⟩
  case unbound =>
    by_cases hreader : ∃ src', decode c = .decodeReader src'
    · obtain ⟨src', hi⟩ := hreader
      rw [hi]
      exact abandon_reader_other k _ fun heq => hnot (heq ▸ hi)
    · rw [abandon_sources_of_not_reader k _ fun src' hi => hreader ⟨src', hi⟩]
  case bound =>
    intro x whole reached n
    obtain ⟨hone, hthree⟩ := requestsMade_bounds (available s (.source src))
    have hwhole : whole = requestsMade 3 (available s (.source src)) DecoderRegs.start := by
      simp only [whole, x, decodeEnd_source_requests, Nat.add_sub_cancel_left]
    have hreached : reached = ((available s (.source src)).take n).length := by
      simp only [reached, n, hwhole]
      exact decodeRun_source_count src k s
    refine ⟨?_, by omega, by omega, ?_⟩
    · rw [hi, hreached]
      simp only [n, hwhole]
      exact abandon_reader_sourceAt k { s with inputs := rest } src
    · rw [deliverable_take]
      exact hreached

/-! ### The queue and the invariant -/

/-- Settles O6: in each of its cases a step has taken the head of the queue before it does anything else. -/
theorem stepTakesTheOldestInput : Obligations.StepTakesTheOldestInput := by
  unfold Obligations.StepTakesTheOldestInput
  intro s t hstep
  rcases step_cases hstep with ⟨hi, rfl⟩ | ⟨rest, hi, rfl⟩ | ⟨c, w, rest, hi, -, ⟨k, -, rfl⟩ | ⟨-, hexec⟩⟩
  · rw [idle_inputs, hi]
    rfl
  · rw [resetBlock_inputs, hi]
    rfl
  · obtain ⟨-, hqueue, -⟩ := abandon_keeps k { s with inputs := rest } (decode c)
    rw [hqueue, hi]
    rfl
  · obtain ⟨t', -, hexec', -, hqueue, -⟩ := exec_next (decode c) { s with inputs := rest }
    obtain rfl : t = t' := Host.Outcome.next.inj (hexec.symm.trans hexec')
    rw [hqueue, hi]
    rfl

/-- Requests to a source keep the table in canonical form. -/
theorem put_after_keeps_wf {m : List (Nat × Source)} (h : SourcesWf m) (k n p : Nat) :
    SourcesWf (putSource m k ((sourceAt m k).after n p)) :=
  put_keeps_wf (after_wf (sourceAt_wf h k) n p) h

theorem exec_keeps_sourcesWf {i : Instr} {s t : State} (h : SourcesWf s.sources) (hexec : exec i s = .next t) :
    SourcesWf t.sources := by
  by_cases hreader : ∃ src, i = .decodeReader src
  · obtain ⟨src, rfl⟩ := hreader
    obtain ⟨t', hexec', -, -, hsources, -⟩ := exec_decodeReader_next src s
    obtain rfl : t = t' := Host.Outcome.next.inj (hexec.symm.trans hexec')
    rw [hsources]
    exact put_after_keeps_wf h src _ _
  · obtain ⟨t', hexec', hsources, -⟩ := bufferOperationsLeaveTheSources i s fun src hi => hreader ⟨src, hi⟩
    obtain rfl : t = t' := Host.Outcome.next.inj (hexec.symm.trans hexec')
    rwa [hsources]

theorem abandon_keeps_sourcesWf {s : State} (h : SourcesWf s.sources) (k : Nat) (i : Instr) :
    SourcesWf (abandon k s i).sources := by
  by_cases hreader : ∃ src, i = .decodeReader src
  · obtain ⟨src, rfl⟩ := hreader
    rw [abandon_reader_sources]
    split
    · exact h
    · exact put_after_keeps_wf h src _ _
  · rwa [abandon_sources_of_not_reader k s fun src hi => hreader ⟨src, hi⟩]

/-- The invariant where nothing is presented. -/
theorem inv_of_outputs_none {t : State} (hsources : SourcesWf t.sources) (houtputs : t.outputs = none)
    (hout : t.enc.out.length ≤ 3) : t.Inv :=
  ⟨hsources, by simp [houtputs], hout⟩

theorem exec_keeps_inv {i : Instr} {s t : State} (h : SourcesWf s.sources) (hexec : exec i s = .next t) : t.Inv := by
  obtain ⟨t', -, hexec', -, -, hout⟩ := exec_next i s
  obtain rfl : t = t' := Host.Outcome.next.inj (hexec.symm.trans hexec')
  exact ⟨exec_keeps_sourcesWf h hexec, fun o ho => presents_legal ⟨t, hexec, ho⟩, hout⟩

/-- Settles O49: no source, no outputs, no byte in OUT. -/
theorem resetMeetsTheInvariant : Obligations.ResetMeetsTheInvariant := by
  unfold Obligations.ResetMeetsTheInvariant
  exact inv_of_outputs_none (by decide) rfl (by decide)

/-- Settles O50: idle steps, resets and abandoned transactions present nothing; a performed one presents what its table
allows; and the table of sources is only ever changed by requests. -/
theorem stepKeepsTheInvariant : Obligations.StepKeepsTheInvariant := by
  unfold Obligations.StepKeepsTheInvariant
  rintro s t ⟨hsources, -, hout⟩ hstep
  rcases step_cases hstep with ⟨-, rfl⟩ | ⟨rest, -, rfl⟩ | ⟨c, w, rest, -, -, ⟨k, -, rfl⟩ | ⟨-, hexec⟩⟩
  · exact inv_of_outputs_none hsources rfl hout
  · exact inv_of_outputs_none hsources rfl (retire_out_length _)
  · obtain ⟨houtputs, -, hbound⟩ := abandon_keeps k { s with inputs := rest } (decode c)
    exact inv_of_outputs_none (abandon_keeps_sourcesWf (s := { s with inputs := rest }) hsources k _) houtputs hbound
  · exact exec_keeps_inv (s := { s with inputs := rest }) hsources hexec

end Sys2Proof.Machine

/-! The decoder's loop (R22, R23, R102, R103): SHIFT against COUNT while the loop runs, its end after three turns, and COUNT by
the way it ended. -/

namespace Sys2Proof

namespace Machine

/-- The registers of a running transaction, by the bytes taken so far. -/
theorem runningRegs_busy {r : DecoderRegs} (h : RunningRegs r) (hbusy : r.phase = .busy) :
    (r.shift = 0#5 ∧ r.count = 0#2) ∨ (r.shift = 7#5 ∧ r.count = 1#2) ∨ (r.shift = 14#5 ∧ r.count = 2#2) := by
  obtain ⟨hshift, hcount⟩ := h hbusy
  rcases hshift with hs | hs | hs <;> rw [hs] at hcount
  · exact .inl ⟨hs, BitVec.eq_of_toNat_eq (by simp at hcount ⊢; omega)⟩
  · exact .inr (.inl ⟨hs, BitVec.eq_of_toNat_eq (by simp at hcount ⊢; omega)⟩)
  · exact .inr (.inr ⟨hs, BitVec.eq_of_toNat_eq (by simp at hcount ⊢; omega)⟩)

/-- A byte step that goes on came from SHIFT 0 or 7, and has moved SHIFT by 7 and COUNT by 1; from 14 none goes on. -/
theorem byteStep_byte_keeps_running {r : DecoderRegs} (h : RunningRegs r) (hbusy : r.phase = .busy) (b : Byte) :
    RunningRegs (byteStep (.byte b) r) := by
  rw [byteStep_byte hbusy]
  intro hphase
  by_cases hc : Continues b
  · rcases runningRegs_busy h hbusy with ⟨hs, hn⟩ | ⟨hs, hn⟩ | ⟨hs, hn⟩
    · simp [hc, hs, hn]
    · simp [hc, hs, hn]
    · simp [hc, hs] at hphase
  · simp [hc] at hphase

theorem byteStep_keeps_running {r : DecoderRegs} (h : RunningRegs r) (input : Answer) :
    RunningRegs (byteStep input r) := by
  by_cases hbusy : r.phase = .busy
  · cases input with
    | exhausted =>
      rw [byteStep_exhausted hbusy]
      exact fun hphase => nomatch hphase
    | byte b => exact byteStep_byte_keeps_running h hbusy b
  · rwa [byteStep_of_ne_busy hbusy]

/-- Settles O23: the start of R101, and the byte step by phase and input. -/
theorem runningShiftIsSevenTimesCount : Obligations.RunningShiftIsSevenTimesCount := by
  unfold Obligations.RunningShiftIsSevenTimesCount
  refine ⟨fun s _ => ⟨.inl rfl, rfl⟩, fun r input h => byteStep_keeps_running h input, fun r b h hbusy => ?_⟩
  refine byteStep_count hbusy b ?_
  rcases runningRegs_busy h hbusy with ⟨-, hn⟩ | ⟨-, hn⟩ | ⟨-, hn⟩ <;> rw [hn] <;> decide

/-- Settles O24: a turn of the loop needs phase Busy. -/
theorem finalPhasesTakeNoByte : Obligations.FinalPhasesTakeNoByte := by
  unfold Obligations.FinalPhasesTakeNoByte
  exact fun f n s h => decodeRun_of_ne_busy h f n

/-- Settles O25: after three turns the loop is in a final phase, in which further turns change nothing. -/
theorem decodeEndsWithinThreeSteps : Obligations.DecodeEndsWithinThreeSteps := by
  unfold Obligations.DecodeEndsWithinThreeSteps
  intro f s
  have hends : (decodeEnd f s).dec.phase ≠ .busy := by
    rw [decodeEnd_dec]
    exact endRegs_ne_busy _
  refine ⟨hends, fun n => ?_⟩
  rw [decodeRun_add]
  exact decodeRun_of_ne_busy hends f n

/-! ### COUNT at the end of the loop -/

theorem endRegs_done_iff (bs : List Byte) :
    (endRegs bs).phase = .done ↔ ∃ length, classify bs = .accepted length := by
  have hcls := endRegs_of_class bs
  split at hcls <;> simp [*]

end Machine

/-- An accepted encoding ends at the first byte whose continuation bit is clear (R63). -/
theorem accepted_ends {bs : List Byte} {length : Nat} (h : classify bs = .accepted length) :
    ∃ b, bs[length - 1]? = some b ∧ ¬ Continues b ∧ ∀ b ∈ bs.take (length - 1), Continues b := by
  rcases classify_cases bs with ⟨b0, r, rfl, h0, hc⟩ | ⟨b0, b1, r, rfl, h0, h1, hc⟩ |
    ⟨b0, b1, b2, r, rfl, h0, h1, h2, hc⟩ | ⟨_, _, _, _, rfl, _, _, _, hc⟩ | ⟨_, _, hc⟩ <;> rw [h] at hc
  · obtain rfl : length = 1 := WireClass.accepted.inj hc
    exact ⟨b0, rfl, h0, by simp⟩
  · obtain rfl : length = 2 := WireClass.accepted.inj hc
    exact ⟨b1, rfl, h1, by simpa using h0⟩
  · obtain rfl : length = 3 := WireClass.accepted.inj hc
    exact ⟨b2, rfl, h2, by simpa using ⟨h0, h1⟩⟩
  · exact nomatch hc
  · exact nomatch hc

namespace Machine

/-- Settles O26: each way of ending is a class of the bytes available, which fixes COUNT. -/
theorem countAtTheEndOfADecode : Obligations.CountAtTheEndOfADecode := by
  unfold Obligations.CountAtTheEndOfADecode
  intro f s t front
  have hdec : t.dec = endRegs front := decodeEnd_dec f s
  rw [hdec]
  refine ⟨fun hphase => ?done, fun hphase => ?ended, fun hphase => ?long, endRegs_ne_trailing front⟩
  case done =>
    obtain ⟨length, hclass⟩ := (endRegs_done_iff front).mp hphase
    obtain ⟨hone, -⟩ := accepted_bounds hclass
    obtain ⟨b, hb, hstops, hbefore⟩ := accepted_ends hclass
    rw [endRegs_count_of_accepted hclass]
    exact ⟨b, hb, hstops, hone, hbefore⟩
  case ended =>
    have hclass := (endRegs_unexpectedEnd_iff front).mp hphase
    obtain ⟨hlen, hall⟩ := (classify_incomplete_iff front).mp hclass
    exact ⟨endRegs_count_of_incomplete hclass, Nat.le_of_lt_succ hlen, hall⟩
  case long => exact endRegs_count_of_outOfBounds ((endRegs_outOfBounds_iff front).mp hphase)

end Machine

end Sys2Proof

/-! The canonical encoding among the accepted ones (R66, R81 to R85): its bytes as numbers, what they carry, and which accepted
encodings of a value it is. -/

namespace Sys2Proof

/-- The closed form of R81 by its three ranges, each byte as a number. -/
theorem canonicalForm_cases (v : Value) :
    (∃ b0, canonicalForm v = [b0] ∧ v.toNat < 0x80 ∧ b0.toNat = v.toNat) ∨
    (∃ b0 b1, canonicalForm v = [b0, b1] ∧ 0x80 ≤ v.toNat ∧ v.toNat < 0x4000 ∧
      b0.toNat = 128 + v.toNat % 128 ∧ b1.toNat = v.toNat / 128) ∨
    (∃ b0 b1 b2, canonicalForm v = [b0, b1, b2] ∧ 0x4000 ≤ v.toNat ∧
      b0.toNat = 128 + v.toNat % 128 ∧ b1.toNat = 128 + v.toNat / 128 % 128 ∧ b2.toNat = v.toNat / 16384) := by
  have hv := v.isLt
  unfold canonicalForm
  by_cases h1 : v.toNat < 0x80
  · rw [if_pos h1]
    exact .inl ⟨_, rfl, h1, by rw [BitVec.toNat_ofNat]; omega⟩
  by_cases h2 : v.toNat < 0x4000
  · rw [if_neg h1, if_pos h2]
    exact .inr (.inl ⟨_, _, rfl, Nat.le_of_not_lt h1, h2, by rw [BitVec.toNat_ofNat]; omega,
      by rw [BitVec.toNat_ofNat]; omega⟩)
  · rw [if_neg h1, if_neg h2]
    exact .inr (.inr ⟨_, _, _, rfl, Nat.le_of_not_lt h2, by rw [BitVec.toNat_ofNat]; omega,
      by rw [BitVec.toNat_ofNat]; omega, by rw [BitVec.toNat_ofNat]; omega⟩)

/-- Byte `k` of a canonical encoding carries group `k` of its value, and continues exactly when a byte follows (R60): by the
passes of R80, the first for byte 0 and the rest for the shifted value. -/
theorem canonicalForm_getElem {k : Nat} {b : Byte} : ∀ {v : Value}, (canonicalForm v)[k]? = some b →
    b.toNat % 128 = v.toNat / 128 ^ k % 128 ∧ (Continues b ↔ k + 1 < (canonicalForm v).length) := by
  induction k with
  | zero =>
    intro v h
    rw [canonicalForm_loop] at h ⊢
    have hone := canonicalLength_bounds (v >>> 7)
    rw [← Machine.canonicalForm_length] at hone
    split at h
    next hpass =>
      rw [if_pos hpass]
      obtain rfl : Machine.groupByte v = b := Option.some.inj h
      rw [Machine.groupByte_eq, Continues, BitVec.toNat_ofNat, List.length_cons]
      omega
    next hlast =>
      rw [if_neg hlast]
      obtain rfl : v.setWidth 8 = b := Option.some.inj h
      rw [Machine.continue_iff] at hlast
      rw [Machine.lastByte_eq, Continues, BitVec.toNat_ofNat, List.length_singleton]
      omega
  | succ k ih =>
    intro v h
    rw [canonicalForm_loop] at h ⊢
    split at h
    next hpass =>
      obtain ⟨hgroup, hmore⟩ := ih h
      rw [if_pos hpass, List.length_cons, hgroup, Machine.shift7_toNat, Nat.div_div_eq_div_mul, ← Nat.pow_succ']
      exact ⟨rfl, hmore.trans (Nat.add_lt_add_iff_right).symm⟩
    next => simp at h

/-- The bits of a byte whose payload is group `k` of a value are the value's bits from `7 * k` on (R40). -/
theorem getLsbD_of_group {v : Value} {b : Byte} {j k : Nat} (h : b.toNat % 128 = v.toNat / 128 ^ k % 128)
    (hj : j < 7) : b.getLsbD j = v.getLsbD (7 * k + j) := by
  have hbits := congrArg (Nat.testBit · j) h
  simp only [show 128 = 2 ^ 7 from rfl, ← Nat.pow_mul, Nat.testBit_mod_two_pow, Nat.testBit_div_two_pow, hj,
    decide_true, Bool.true_and] at hbits
  simpa only [BitVec.getLsbD, Nat.add_comm] using hbits

theorem canonicalForm_injective {v w : Value} (h : canonicalForm v = canonicalForm w) : v = w := by
  apply BitVec.eq_of_toNat_eq
  rw [← wireValue_canonicalForm v, h, wireValue_canonicalForm]

/-! ### Accepted encodings of a value -/

/-- The bytes of an accepted encoding, cut off what follows them (R67). -/
theorem accepted_bytes {buf : List Byte} {length : Nat} (h : classify buf = .accepted length) :
    (length = 1 ∧ ∃ b0, buf.take length = [b0] ∧ ¬ Continues b0) ∨
    (length = 2 ∧ ∃ b0 b1, buf.take length = [b0, b1] ∧ Continues b0 ∧ ¬ Continues b1) ∨
    (length = 3 ∧ ∃ b0 b1 b2, buf.take length = [b0, b1, b2] ∧ Continues b0 ∧ Continues b1 ∧ ¬ Continues b2) := by
  rcases classify_cases buf with ⟨b0, r, rfl, h0, hc⟩ | ⟨b0, b1, r, rfl, h0, h1, hc⟩ |
    ⟨b0, b1, b2, r, rfl, h0, h1, h2, hc⟩ | ⟨_, _, _, _, rfl, _, _, _, hc⟩ | ⟨_, _, hc⟩ <;> rw [h] at hc
  · obtain rfl : length = 1 := WireClass.accepted.inj hc
    exact .inl ⟨rfl, b0, rfl, h0⟩
  · obtain rfl : length = 2 := WireClass.accepted.inj hc
    exact .inr (.inl ⟨rfl, b0, b1, rfl, h0, h1⟩)
  · obtain rfl : length = 3 := WireClass.accepted.inj hc
    exact .inr (.inr ⟨rfl, b0, b1, b2, rfl, h0, h1, h2⟩)
  · exact nomatch hc
  · exact nomatch hc

section
variable {buf : List Byte} {length : Nat} {v : Value}

/-- R83: an encoding of `length` bytes has room for `length` groups, so the value needs no more. -/
theorem canonicalLength_le (h : classify buf = .accepted length) (hv : wireValue (buf.take length) = v.toNat) :
    canonicalLength v ≤ length := by
  have hcases := canonicalLength_cases v
  rcases accepted_bytes h with ⟨rfl, b0, htake, -⟩ | ⟨rfl, b0, b1, htake, -, -⟩ | ⟨rfl, _, _, _, _, _⟩
  · simp only [htake, wireValue] at hv
    omega
  · simp only [htake, wireValue] at hv
    omega
  · omega

/-- R66: among the accepted encodings of a value the canonical one is told by its last byte. -/
theorem eq_canonicalForm_iff (h : classify buf = .accepted length) (hv : wireValue (buf.take length) = v.toNat) :
    buf.take length = canonicalForm v ↔ LooksCanonical (buf.take length) := by
  rcases accepted_bytes h with ⟨rfl, b0, htake, hc0⟩ | ⟨rfl, b0, b1, htake, hc0, hc1⟩ |
    ⟨rfl, b0, b1, b2, htake, hc0, hc1, hc2⟩ <;>
    rw [htake] at hv ⊢ <;> simp only [wireValue, LooksCanonical, Continues] at *
  · rcases canonicalForm_cases v with ⟨c0, hform, -, h0⟩ | ⟨_, _, -, hle, -⟩ | ⟨_, _, _, -, hle, -⟩
    · obtain rfl : b0 = c0 := BitVec.eq_of_toNat_eq (by omega)
      exact iff_true_intro hform.symm
    · omega
    · omega
  · rcases canonicalForm_cases v with ⟨c0, hform, hlt, -⟩ | ⟨c0, c1, hform, hle, -, h0, h1⟩ | ⟨_, _, _, -, hle, -⟩
    · exact iff_of_false (by simp [hform]) (by omega)
    · obtain rfl : b0 = c0 := BitVec.eq_of_toNat_eq (by omega)
      obtain rfl : b1 = c1 := BitVec.eq_of_toNat_eq (by omega)
      exact iff_of_true hform.symm (by omega)
    · omega
  · rcases canonicalForm_cases v with ⟨c0, hform, hlt, -⟩ | ⟨c0, c1, hform, -, hlt, -⟩ |
      ⟨c0, c1, c2, hform, hle, h0, h1, h2⟩
    · exact iff_of_false (by simp [hform]) (by omega)
    · exact iff_of_false (by simp [hform]) (by omega)
    · obtain rfl : b0 = c0 := BitVec.eq_of_toNat_eq (by omega)
      obtain rfl : b1 = c1 := BitVec.eq_of_toNat_eq (by omega)
      have hsame : b2.toNat = c2.toNat ↔ b2.toNat = 1 ∨ b2.toNat = 2 ∨ b2.toNat = 3 := by omega
      rw [hform, ← hsame, BitVec.toNat_inj]
      simp

/-- An accepted encoding that is as long as the canonical one has its last byte, if bits 6:2 of a third byte are clear. -/
theorem looksCanonical_of_length (h : classify buf = .accepted length) (hv : wireValue (buf.take length) = v.toNat)
    (hlen : length = canonicalLength v) (hthird : ∀ b2, buf[2]? = some b2 → length = 3 → b2.toNat < 4) :
    LooksCanonical (buf.take length) := by
  have hcases := canonicalLength_cases v
  rcases accepted_bytes h with ⟨rfl, b0, htake, -⟩ | ⟨rfl, b0, b1, htake, -, -⟩ | ⟨rfl, b0, b1, b2, htake, -, -, -⟩ <;>
    rw [htake] at hv ⊢ <;> simp only [wireValue, LooksCanonical] at hv ⊢
  · omega
  · have hb2 : buf[2]? = some b2 := by
      rw [← List.getElem?_take_of_lt (show 2 < 3 by decide), htake]
      rfl
    have hsmall := hthird b2 hb2 rfl
    omega

theorem wireValue_lt (h : classify buf = .accepted length) : wireValue (buf.take length) < 65536 := by
  rcases accepted_bytes h with ⟨rfl, b0, htake, -⟩ | ⟨rfl, b0, b1, htake, -, -⟩ | ⟨rfl, b0, b1, b2, htake, -, -, -⟩ <;>
    rw [htake] <;> simp only [wireValue] <;> omega

end

namespace Machine

/-- Settles O18: ENCODE presents the closed form, whose length the value fixes. -/
theorem encodeIsMinimal : Obligations.EncodeIsMinimal := by
  unfold Obligations.EncodeIsMinimal
  refine ⟨canonicalForm, presents_encode, fun v w => canonicalForm_injective, fun v buf length hclass hv => ?minimal⟩
  case minimal =>
    rw [canonicalForm_length]
    exact ⟨canonicalLength_le hclass hv, fun hlen hthird =>
      (eq_canonicalForm_iff hclass hv).mpr (looksCanonical_of_length hclass hv hlen hthird)⟩

/-- Settles O20: the bytes of each of the three ranges as numbers. -/
theorem encodeOutputByteRanges : Obligations.EncodeOutputByteRanges := by
  unfold Obligations.EncodeOutputByteRanges
  intro v s
  have hv := v.isLt
  have hp := presents_encode v s
  rcases canonicalForm_cases v with ⟨b0, hform, hlt, h0⟩ | ⟨b0, b1, hform, hle, hlt, h0, h1⟩ |
    ⟨b0, b1, b2, hform, hle, h0, h1, h2⟩ <;> rw [hform] at hp
  · exact ⟨[], b0, hp, by simp, by omega, by simp, by simp⟩
  · exact ⟨[b0], b1, hp, by simp; omega, by omega, fun _ => by omega, by simp⟩
  · exact ⟨[b0, b1], b2, hp, by simp; omega, by omega, by simp, fun _ => by omega⟩

/-- Settles O21: each byte of the closed form carries its group. -/
theorem encodedByteCarriesItsGroup : Obligations.EncodedByteCarriesItsGroup := by
  unfold Obligations.EncodedByteCarriesItsGroup
  refine fun v s => ⟨canonicalForm v, presents_encode v s, fun k b hb => ?_⟩
  obtain ⟨hgroup, hmore⟩ := canonicalForm_getElem hb
  exact ⟨fun j => getLsbD_of_group hgroup, (getLsbD_seven_true b).trans hmore⟩

theorem presents_encode_iff (v : Value) (s : State) (bytes : List Byte) :
    Presents (.encode v) s (.encoded bytes) ↔ bytes = canonicalForm v := by
  refine ⟨fun h => ?_, fun h => h ▸ presents_encode v s⟩
  simpa using congrArg Outputs.bytes (presents_unique h (presents_encode v s))

/-- Settles O46: DECODE succeeds on an accepted encoding of the value, and ENCODE presents the value's closed form. -/
theorem canonicalExactlyWhenReencodedTheSame : Obligations.CanonicalExactlyWhenReencodedTheSame := by
  unfold Obligations.CanonicalExactlyWhenReencodedTheSame
  intro s buf v c h
  obtain ⟨hclass, hv⟩ := presents_decode_ok h
  have hvalue : wireValue (buf.take c.toNat) = v.toNat := by
    rw [hv, BitVec.toNat_ofNat, Nat.mod_eq_of_lt (wireValue_lt hclass)]
  rw [presents_encode_iff, eq_canonicalForm_iff hclass hvalue]

/-! ### The table of sources -/

/-- Settles O43: one request to the source, which is put back where it was read. -/
theorem readByteConsumesOneByte : Obligations.ReadByteConsumesOneByte := by
  unfold Obligations.ReadByteConsumesOneByte
  intro src s x y
  have hy : y = x.ask.2 := sourceAt_put_same (ask_ne_empty x) s.sources src
  have hanswer : (readByte src s).1 = x.ask.1 := rfl
  rw [hanswer, hy]
  refine ⟨fun b rest h => ?byte, fun h => ?exhausted, fun other hother => sourceAt_put_other _ hother _⟩
  case byte =>
    obtain ⟨hask, -⟩ := ask_byte (b := b) (bs := deliverable rest) (by rw [h]; rfl)
    rw [hask, h]
    exact ⟨rfl, rfl⟩
  case exhausted =>
    rw [ask_exhausted h]
    exact ⟨rfl, rfl, rfl⟩

/-- Settles O44: read after write, other names, and the canonical form, which makes a table the list of what it reads. -/
theorem sourceTableReadsBack : Obligations.SourceTableReadsBack := by
  unfold Obligations.SourceTableReadsBack
  exact ⟨fun m k x hm hx => ⟨put_keeps_wf hx hm, sourceAt_put_same_wf hm, fun j hj => sourceAt_put_other x hj m⟩,
    fun m n => sources_ext⟩

end Machine

end Sys2Proof

/-! The counts of R68: encodings as products of the bytes that continue and those that end one, the buffers that one encoding
fills as three disjoint images of these, and the outputs of ENCODE as the range of the closed form. -/

namespace Sys2Proof

/-- The bytes after which an encoding goes on. -/
def continuingBytes : Set Byte := {b | Continues b}

/-- The bytes that end an encoding. -/
def finalBytes : Set Byte := {b | ¬ Continues b}

theorem ncard_toNat_lt {w n : Nat} (h : n ≤ 2 ^ w) : {x : BitVec w | x.toNat < n}.ncard = n := by
  have himage : BitVec.toNat '' {x : BitVec w | x.toNat < n} = Finset.range n := by
    ext m
    simp only [Set.mem_image, Set.mem_ofPred_eq, Finset.coe_range, Set.mem_Iio]
    constructor
    · rintro ⟨x, hx, rfl⟩
      exact hx
    · intro hm
      have hx : (BitVec.ofNat w m).toNat = m := by
        rw [BitVec.toNat_ofNat, Nat.mod_eq_of_lt (Nat.lt_of_lt_of_le hm h)]
      exact ⟨BitVec.ofNat w m, hx.symm ▸ hm, hx⟩
  rw [← Set.ncard_image_of_injective _ fun _ _ => BitVec.eq_of_toNat_eq, himage, Set.ncard_coe_finset,
    Finset.card_range]

theorem card_bitVec (w : Nat) : Nat.card (BitVec w) = 2 ^ w :=
  (Nat.card_congr BitVec.equivFin.toEquiv).trans (Nat.card_fin _)

theorem ncard_finalBytes : finalBytes.ncard = 128 := by
  have hfinal : finalBytes = {b : Byte | b.toNat < 128} := Set.ext fun _ => Nat.not_le
  rw [hfinal, ncard_toNat_lt (by decide)]

theorem ncard_continuingBytes : continuingBytes.ncard = 128 := by
  have hcompl : continuingBytes = finalBytesᶜ := Set.ext fun _ => not_not.symm
  rw [hcompl, Set.ncard_compl, ncard_finalBytes, card_bitVec]
  rfl

/-! ### The encodings of each length -/

/-- The two-byte encodings, as pairs. -/
def twoByteEncodings : Set (Byte × Byte) := continuingBytes ×ˢ finalBytes

/-- The three-byte encodings, as triples. -/
def threeByteEncodings : Set (Byte × Byte × Byte) := continuingBytes ×ˢ twoByteEncodings

theorem ncard_twoByteEncodings : twoByteEncodings.ncard = 16384 := by
  rw [twoByteEncodings, Set.ncard_prod, ncard_continuingBytes, ncard_finalBytes]

theorem ncard_threeByteEncodings : threeByteEncodings.ncard = 2097152 := by
  rw [threeByteEncodings, Set.ncard_prod, ncard_continuingBytes, ncard_twoByteEncodings]

theorem classify_single_iff (b0 : Byte) : classify [b0] = .accepted 1 ↔ b0 ∈ finalBytes := by
  by_cases h0 : Continues b0
  · simp [classify, finalBytes, h0]
  · exact iff_of_true (classify_one h0 []) h0

theorem classify_pair_iff (p : Byte × Byte) : classify [p.1, p.2] = .accepted 2 ↔ p ∈ twoByteEncodings := by
  by_cases h0 : Continues p.1
  · by_cases h1 : Continues p.2
    · simp [classify, twoByteEncodings, finalBytes, h0, h1]
    · exact iff_of_true (classify_two h0 h1 []) ⟨h0, h1⟩
  · simp [classify, twoByteEncodings, continuingBytes, h0]

theorem classify_triple_iff (p : Byte × Byte × Byte) :
    classify [p.1, p.2.1, p.2.2] = .accepted 3 ↔ p ∈ threeByteEncodings := by
  by_cases h0 : Continues p.1
  · by_cases h1 : Continues p.2.1
    · by_cases h2 : Continues p.2.2
      · simp [classify, threeByteEncodings, twoByteEncodings, finalBytes, h0, h1, h2]
      · exact iff_of_true (classify_three h0 h1 h2 []) ⟨h0, h1, h2⟩
    · simp [classify, threeByteEncodings, twoByteEncodings, continuingBytes, h0, h1]
  · simp [classify, threeByteEncodings, continuingBytes, h0]

/-- A buffer of one byte. -/
def listOfByte (b : Byte) : List Byte := [b]

/-- A pair as a buffer of two bytes. -/
def listOfPair (p : Byte × Byte) : List Byte := [p.1, p.2]

/-- A triple as a buffer of three bytes. -/
def listOfTriple (p : Byte × Byte × Byte) : List Byte := [p.1, p.2.1, p.2.2]

/-- A buffer that one encoding fills is one of the encodings of a length. -/
theorem whole_encodings :
    {buf : List Byte | classify buf = .accepted buf.length} =
      listOfByte '' finalBytes ∪ (listOfPair '' twoByteEncodings ∪ listOfTriple '' threeByteEncodings) := by
  ext buf
  simp only [Set.mem_ofPred_eq, Set.mem_union, Set.mem_image]
  constructor
  · intro h
    have hbytes := accepted_bytes h
    rw [List.take_length] at hbytes
    rcases hbytes with ⟨-, b0, rfl, -⟩ | ⟨-, b0, b1, rfl, -⟩ | ⟨-, b0, b1, b2, rfl, -⟩
    · exact .inl ⟨b0, (classify_single_iff b0).mp h, rfl⟩
    · exact .inr (.inl ⟨(b0, b1), (classify_pair_iff (b0, b1)).mp h, rfl⟩)
    · exact .inr (.inr ⟨(b0, b1, b2), (classify_triple_iff (b0, b1, b2)).mp h, rfl⟩)
  · rintro (⟨b0, h, rfl⟩ | ⟨p, h, rfl⟩ | ⟨p, h, rfl⟩)
    · exact (classify_single_iff b0).mpr h
    · exact (classify_pair_iff p).mpr h
    · exact (classify_triple_iff p).mpr h

theorem listOfByte_injective : Function.Injective listOfByte := fun _ _ h => List.singleton_injective h

theorem listOfPair_injective : Function.Injective listOfPair := by
  rintro ⟨a0, a1⟩ ⟨b0, b1⟩ h
  simpa [listOfPair] using h

theorem listOfTriple_injective : Function.Injective listOfTriple := by
  rintro ⟨a0, a1, a2⟩ ⟨b0, b1, b2⟩ h
  simpa [listOfTriple] using h

theorem ncard_whole_encodings : {buf : List Byte | classify buf = .accepted buf.length}.ncard = 2113664 := by
  have htwo : Disjoint (listOfPair '' twoByteEncodings) (listOfTriple '' threeByteEncodings) :=
    Set.disjoint_image_image fun _ _ _ _ => by simp [listOfPair, listOfTriple]
  have hone : Disjoint (listOfByte '' finalBytes)
      (listOfPair '' twoByteEncodings ∪ listOfTriple '' threeByteEncodings) :=
    Set.disjoint_union_right.mpr ⟨Set.disjoint_image_image fun _ _ _ _ => by simp [listOfByte, listOfPair],
      Set.disjoint_image_image fun _ _ _ _ => by simp [listOfByte, listOfTriple]⟩
  rw [whole_encodings, Set.ncard_union_eq hone, Set.ncard_union_eq htwo,
    Set.ncard_image_of_injective _ listOfByte_injective, Set.ncard_image_of_injective _ listOfPair_injective,
    Set.ncard_image_of_injective _ listOfTriple_injective, ncard_finalBytes, ncard_twoByteEncodings,
    ncard_threeByteEncodings]

namespace Machine

/-- What ENCODE presents as BYTES, over all values, is the range of the closed form. -/
theorem encode_bytes_eq_range (s : State) :
    {bytes : List Byte | ∃ v o, Presents (.encode v) s o ∧ o.bytes = some bytes} = Set.range canonicalForm := by
  ext bytes
  constructor
  · rintro ⟨v, o, hp, hbytes⟩
    rw [presents_unique hp (presents_encode v s)] at hbytes
    exact ⟨v, Option.some.inj hbytes⟩
  · rintro ⟨v, rfl⟩
    exact ⟨v, _, presents_encode v s, rfl⟩

/-- Settles O48: what the operations accept and give, as the sets counted above. -/
theorem countsOfEncodings : Obligations.CountsOfEncodings := by
  unfold Obligations.CountsOfEncodings
  refine fun s => ⟨?singles, ?pairs, ?triples, ?strict, ?encode,
    fun v => ⟨canonicalForm v ++ [], _, presents_decode_canonicalForm v [] s⟩⟩
  case singles =>
    have hset := Set.ext fun b => (presents_decode_iff [b] s 1#2).trans (classify_single_iff b)
    exact (congrArg Set.ncard hset).trans ncard_finalBytes
  case pairs =>
    have hset := Set.ext fun p : Byte × Byte =>
      (presents_decode_iff [p.1, p.2] s 2#2).trans (classify_pair_iff p)
    exact (congrArg Set.ncard hset).trans ncard_twoByteEncodings
  case triples =>
    have hset := Set.ext fun p : Byte × Byte × Byte =>
      (presents_decode_iff [p.1, p.2.1, p.2.2] s 3#2).trans (classify_triple_iff p)
    exact (congrArg Set.ncard hset).trans ncard_threeByteEncodings
  case strict =>
    simp only [presents_strict_iff]
    exact ncard_whole_encodings
  case encode =>
    rw [encode_bytes_eq_range, Set.ncard_range_of_injective fun _ _ => canonicalForm_injective, card_bitVec]
    rfl

end Machine

end Sys2Proof
